-- ==== Sys2Proof/Word.lean ====
section
/-! DEFINITION. The word types of the machine (`00_scope.md` R6, R8; `10_state.md` R20, R24, R28; `20_memory.md` R50).
Every value is unsigned; arithmetic that leaves a width is reduced by the definitions that say so. -/

namespace Sys2Proof

/-- A *Word* (R12): a 15-bit program-visible value, 0 to 32767. Registers, stack entries and resolved operands are Words. -/
abbrev Word := BitVec 15

/-- A *stored word* (R12): the 16-bit content of one memory cell, also the width of the instruction pointer (R24)
and of the fields of the fault record (R33). -/
abbrev StoredWord := BitVec 16

/-- One byte of the program image (R56) and one output character code (`OUT_WIDTH = 8`, R6). -/
abbrev Byte := BitVec 8

/-- The number of a general register R0 to R7 (R20). -/
abbrev RegIndex := Fin 8

end Sys2Proof
end

