-- ==== Sys2Proof/Syntax.lean ====
section
/-! DEFINITION. The instructions as syntax (`30_encoding.md` R80 to R88): one constructor of `Instr` per row of
`spec/opcode_table.json`. An operand is "a decoding result — tagged as either a Literal or a Register reference" (R12);
words that are neither stay in the syntax as `invalid`, because the machine faults on them only when it resolves
them (R87, R90), so an instruction that holds one is executed, not rejected by the decoder. -/

namespace Sys2Proof

/-- A decoded operand word (R83). -/
inductive Operand where
  /-- A word below 32768: its value is its low 15 bits. -/
  | literal (v : Word)
  /-- A word 32768 to 32775: register `R<r>`. -/
  | register (r : RegIndex)
  /-- A word of 32776 or more: invalid in operand position. -/
  | invalid (w : StoredWord)
deriving DecidableEq, Repr

/-- The 22 instructions (R88), operands in encoding order (R80), each any operand word. The constructor of IN is
`input`, since `in` is a Lean keyword. -/
inductive Instr where
  | halt
  | set (a b : Operand)
  | push (a : Operand)
  | pop (a : Operand)
  | eq (a b c : Operand)
  | gt (a b c : Operand)
  | jmp (a : Operand)
  | jt (a b : Operand)
  | jf (a b : Operand)
  | add (a b c : Operand)
  | mult (a b c : Operand)
  | mod (a b c : Operand)
  | and (a b c : Operand)
  | or (a b c : Operand)
  | not (a b : Operand)
  | rmem (a b : Operand)
  | wmem (a b : Operand)
  | call (a : Operand)
  | ret
  | out (a : Operand)
  | input (a : Operand)
  | nop
deriving DecidableEq, Repr

/-- The two operand kinds (R85, R86). -/
inductive OperandKind where
  /-- Resolved with resolve-as-register. -/
  | reg
  /-- Resolved with resolve-as-value. -/
  | val
deriving DecidableEq, Repr

/-- The operands of an instruction in encoding order, each with its kind: R82's formats Z, R, V, RV, VV and RVV. -/
def Instr.operands : Instr → List (OperandKind × Operand)
  | .halt | .ret | .nop => []
  | .pop a | .input a => [(.reg, a)]
  | .push a | .jmp a | .call a | .out a => [(.val, a)]
  | .set a b | .not a b | .rmem a b => [(.reg, a), (.val, b)]
  | .jt a b | .jf a b | .wmem a b => [(.val, a), (.val, b)]
  | .eq a b c | .gt a b c | .add a b c | .mult a b c | .mod a b c | .and a b c | .or a b c =>
    [(.reg, a), (.val, b), (.val, c)]

/-- R84: the length in words is 1 + the operand count. -/
def Instr.length (i : Instr) : Nat := 1 + i.operands.length

/-- The mnemonic (R88). -/
def Instr.mnemonic : Instr → String
  | .halt => "HALT"
  | .set .. => "SET"
  | .push .. => "PUSH"
  | .pop .. => "POP"
  | .eq .. => "EQ"
  | .gt .. => "GT"
  | .jmp .. => "JMP"
  | .jt .. => "JT"
  | .jf .. => "JF"
  | .add .. => "ADD"
  | .mult .. => "MULT"
  | .mod .. => "MOD"
  | .and .. => "AND"
  | .or .. => "OR"
  | .not .. => "NOT"
  | .rmem .. => "RMEM"
  | .wmem .. => "WMEM"
  | .call .. => "CALL"
  | .ret => "RET"
  | .out .. => "OUT"
  | .input .. => "IN"
  | .nop => "NOP"

end Sys2Proof
end

