-- ==== Sys2Proof/WellFormed.lean ====
section
/-! DEFINITION. The checks on instructions as syntax (`30_encoding.md` R83, R85, R86, R90).
`wf` says that each operand's tag agrees with its word, which every decoded instruction meets; `legal` says that
each operand is one the spec admits in its position. An instruction that is `wf` and not `legal` is executed and
faults while its operands are resolved (R90). -/

namespace Sys2Proof

/-- R83: only a word of 32776 or more is tagged `invalid`. -/
def Operand.wf : Operand → Bool
  | .literal _ => true
  | .register _ => true
  | .invalid w => decide (32776 ≤ w.toNat)

/-- Every operand's tag agrees with its word. -/
def Instr.wf (i : Instr) : Bool := i.operands.all fun p => p.2.wf

/-- R86 for a register position (a Register reference only); R85 for a value position (a Literal or a Register
reference). -/
def OperandKind.accepts : OperandKind → Operand → Bool
  | .reg, .register _ => true
  | .reg, .literal _ => false
  | .reg, .invalid _ => false
  | .val, .literal _ => true
  | .val, .register _ => true
  | .val, .invalid _ => false

/-- R90: no operand is illegal in its position. -/
def Instr.legal (i : Instr) : Bool := i.operands.all fun p => p.1.accepts p.2

end Sys2Proof
end

