-- ==== Sys2Proof/Decode.lean ====
section
/-! DEFINITION. Decoding and encoding (`30_encoding.md` R80 to R91). The decoder is total: an opcode word that is none
of the 22 is rejected by name (R89), and so is a word list that ends inside an instruction; an operand word is never
rejected here, since R87 checks it when it is resolved. -/

namespace Sys2Proof

/-- R83: the operand an operand word stands for. -/
def Operand.ofWord (w : StoredWord) : Operand :=
  if w.toNat < 32768 then .literal (w.setWidth 15)
  else if h : w.toNat < 32776 then .register ⟨w.toNat - 32768, by omega⟩
  else .invalid w

/-- R83 read the other way: the word of an operand. -/
def Operand.toWord : Operand → StoredWord
  | .literal v => v.setWidth 16
  | .register r => BitVec.ofNat 16 (32768 + r.val)
  | .invalid w => w

/-- R88: the instruction of an opcode word `w0`, all 16 bits compared (R81), and the three words after it, of which
it uses as many as it has operands; none when `w0` is 22 or more (R89). -/
def decodeWindow (w0 w1 w2 w3 : StoredWord) : Option Instr :=
  match w0.toNat with
  | 0 => some .halt
  | 1 => some (.set (.ofWord w1) (.ofWord w2))
  | 2 => some (.push (.ofWord w1))
  | 3 => some (.pop (.ofWord w1))
  | 4 => some (.eq (.ofWord w1) (.ofWord w2) (.ofWord w3))
  | 5 => some (.gt (.ofWord w1) (.ofWord w2) (.ofWord w3))
  | 6 => some (.jmp (.ofWord w1))
  | 7 => some (.jt (.ofWord w1) (.ofWord w2))
  | 8 => some (.jf (.ofWord w1) (.ofWord w2))
  | 9 => some (.add (.ofWord w1) (.ofWord w2) (.ofWord w3))
  | 10 => some (.mult (.ofWord w1) (.ofWord w2) (.ofWord w3))
  | 11 => some (.mod (.ofWord w1) (.ofWord w2) (.ofWord w3))
  | 12 => some (.and (.ofWord w1) (.ofWord w2) (.ofWord w3))
  | 13 => some (.or (.ofWord w1) (.ofWord w2) (.ofWord w3))
  | 14 => some (.not (.ofWord w1) (.ofWord w2))
  | 15 => some (.rmem (.ofWord w1) (.ofWord w2))
  | 16 => some (.wmem (.ofWord w1) (.ofWord w2))
  | 17 => some (.call (.ofWord w1))
  | 18 => some .ret
  | 19 => some (.out (.ofWord w1))
  | 20 => some (.input (.ofWord w1))
  | 21 => some .nop
  | _ => none

/-- Why a list of words is no instruction. -/
inductive DecodeError where
  /-- The opcode word is none of the 22 (R89). -/
  | unknownOpcode (w : StoredWord)
  /-- The list ends before the opcode word or before the last operand word. -/
  | truncated
deriving DecidableEq, Repr

/-- What a word list decodes to. -/
inductive Decoded where
  /-- An instruction, and the words after it. -/
  | instr (i : Instr) (rest : List StoredWord)
  /-- No instruction, and why. -/
  | refused (e : DecodeError)
deriving DecidableEq, Repr

/-- The instruction at the head of a word list, with the rest of the list. -/
def decode : List StoredWord → Decoded
  | [] => .refused .truncated
  | w0 :: ws =>
    match decodeWindow w0 (ws.getD 0 0) (ws.getD 1 0) (ws.getD 2 0) with
    | none => .refused (.unknownOpcode w0)
    | some i =>
      if ws.length < i.operands.length then .refused .truncated
      else .instr i (ws.drop i.operands.length)

/-- R88: the opcode word of an instruction. -/
def Instr.opcode : Instr → StoredWord
  | .halt => 0
  | .set .. => 1
  | .push .. => 2
  | .pop .. => 3
  | .eq .. => 4
  | .gt .. => 5
  | .jmp .. => 6
  | .jt .. => 7
  | .jf .. => 8
  | .add .. => 9
  | .mult .. => 10
  | .mod .. => 11
  | .and .. => 12
  | .or .. => 13
  | .not .. => 14
  | .rmem .. => 15
  | .wmem .. => 16
  | .call .. => 17
  | .ret => 18
  | .out .. => 19
  | .input .. => 20
  | .nop => 21

/-- R80, R82: the words of an instruction, the opcode word first and the operand words in encoding order. -/
def encode (i : Instr) : List StoredWord := i.opcode :: i.operands.map fun p => p.2.toWord

/-- R56, R61: the words of a byte sequence, the byte at the even offset low; none when the length is odd. -/
def wordsOfBytes : List Byte → Option (List StoredWord)
  | [] => some []
  | [_] => none
  | lo :: hi :: bs => (wordsOfBytes bs).map fun ws => BitVec.ofNat 16 (lo.toNat + 256 * hi.toNat) :: ws

/-- The decoder on bytes laid out as a program image lays them out (R56); an odd byte ends the sequence early. -/
def decodeBytes (bs : List Byte) : Decoded :=
  match wordsOfBytes bs with
  | none => .refused .truncated
  | some ws => decode ws

/-- The four words, as many as the longest instruction has (R84), of a number whose low `nbits` bits count from bit 0
of the first word; the bits above `nbits` are 0. -/
def tableWords (nbits w : Nat) : List StoredWord :=
  let v := w % 2 ^ nbits
  [BitVec.ofNat 16 v, BitVec.ofNat 16 (v / 2 ^ 16), BitVec.ofNat 16 (v / 2 ^ 32), BitVec.ofNat 16 (v / 2 ^ 48)]

/-- The instruction the decoder reads from those words. -/
def decodeTableWord (nbits w : Nat) : Option Instr :=
  match decode (tableWords nbits w) with
  | .instr i _ => some i
  | .refused _ => none

end Sys2Proof
end

