-- ==== Sys2Proof/Config.lean ====
section
/-! DEFINITION. The implementation parameters of `00_scope.md` R6 that the spec leaves OPEN (`92_eei_decisions.md` D4, D10).
They are plain data carried by the state (log entry 2), so that every statement is about every value of them (R7).
The fixed numbers of R6 (15, 16, 32768, 8, 32776, 22, `OUT_WIDTH` 8, `NEWLINE` 10) stand in the definitions as the
spec's pseudocode prints them. No behaviour of this machine is a free value (`93_implementation_defined.md`, part 1). -/

namespace Sys2Proof

/-- A positive natural number, which is what R7 makes of `STACK_CAPACITY`. -/
abbrev Capacity := { n : Nat // 0 < n }

/-- The parameters of one machine, fixed while it runs. -/
structure Config where
  /-- `STACK_CAPACITY` (R6, R7): most entries the stack holds. No configuration has the capacity 0. -/
  stackCapacity : Capacity
  /-- `IN_WIDTH` (R6, R184): width of a character code delivered by the input stream. -/
  inWidth : Nat
deriving DecidableEq, Repr

/-- R6's defaults: `STACK_CAPACITY` 65536 and `IN_WIDTH` 8. -/
def Config.default : Config := { stackCapacity := ⟨65536, by decide⟩, inWidth := 8 }

end Sys2Proof
end

