-- ==== Sys2Proof/Machine/State.lean ====
section
/-! DEFINITION. The machine's state as plain data and its value after reset (R46). `MachineState` is R47's tuple, "these
fields and no others": `sp` is the length of `stack` (R29, R31) and the status is derived (R34). `State` is a machine in
its surroundings: the machine state, the parameters (log entry 2), and the traces of the host's channels (R39, log entry
3), which are events and not state of the machine. -/

namespace Sys2Proof.Machine

/-- Memory (R50): the cells that differ from 0, as pairs of a word address and its 16-bit content, addresses strictly
rising. A cell not listed holds 0, the value R46 gives every cell at reset. `Memory.wf` is that form. -/
abbrev Memory := List (Nat × StoredWord)

/-- The nine execution faults (R200). -/
inductive FaultCause where
  /-- R201: raised by `Val` on an operand word of 32776 or more. -/
  | invalidOperand
  /-- R202: raised by `Reg` on an operand word outside 32768 to 32775. -/
  | invalidRegister
  /-- R203: raised by `JumpTo` on a target above 32767; no reachable state raises it. -/
  | invalidJumpTarget
  /-- R204: raised by `Fetch` at 32768, and by CALL when its return address would be 32768. -/
  | instructionPointerOutOfRange
  /-- R205: raised by `Push` on a full stack. -/
  | stackOverflow
  /-- R206: raised by POP on an empty stack. -/
  | stackUnderflow
  /-- R207: raised by dispatch on an opcode word of 22 or more. -/
  | unknownOpcode
  /-- R208: raised by MOD on a zero divisor. -/
  | divisionByZero
  /-- R209: raised by RMEM and WMEM on an address above 32767; no reachable state raises it. -/
  | addressOutOfRange
deriving DecidableEq, Repr

/-- The fault record (R33). `cause` is `none` while there is no fault (code 0). -/
structure FaultRecord where
  cause : Option FaultCause
  info : StoredWord
  faultPc : StoredWord
  instrAddr : StoredWord
deriving DecidableEq, Repr

/-- The empty record of R46. -/
def FaultRecord.empty : FaultRecord := { cause := none, info := 0, faultPc := 0, instrAddr := 0 }

/-- The host's answer to a request on the `in` channel (R184). -/
inductive InputAnswer where
  /-- `Char(c)`: one character code, as received. -/
  | char (code : Nat)
  /-- `Eof`: the stream has ended. -/
  | eof
deriving DecidableEq, Repr

/-- What a checkpoint request carries (R188) and a restore sets (R246): the machine state without the fault record.
The stack pointer is the stack's length (R31). -/
structure Snapshot where
  mem : Memory
  regs : Vector Word 8
  stack : List Word
  pc : StoredWord
  halted : Bool
deriving DecidableEq, Repr

/-- The machine state: exactly R47's tuple. -/
structure MachineState where
  /-- `x[0..7]` (R20). -/
  regs : Vector Word 8
  /-- `mem[0..32767]` (R50). -/
  mem : Memory
  /-- The stack, bottom first (R28, R47); `sp` is its length (R29). -/
  stack : List Word
  /-- The instruction pointer (R24). -/
  pc : StoredWord
  /-- The halted flag (R32). -/
  halted : Bool
  /-- The fault record (R33). -/
  fault : FaultRecord
deriving DecidableEq, Repr

/-- A machine in its surroundings. A step is a function of the machine state and of one answer (R112), and the three
channels only record what it takes and sends (an obligation says so). -/
structure State extends MachineState where
  /-- The parameters (R6), which no step writes. -/
  cfg : Config
  /-- The `in` channel (R39, R184): the answers the host gives to the next requests, oldest first; where the list is
  empty the host has not answered. -/
  input : List InputAnswer
  /-- The `out` channel (R39, R181): the codes sent, oldest first. -/
  output : List Byte
  /-- The `checkpoint` channel (R39, R188): the requests sent, oldest first. -/
  checkpoints : List Snapshot
deriving DecidableEq, Repr

/-- The three machine statuses (R34). -/
inductive Status where
  | running
  | halted
  | faulted
deriving DecidableEq, Repr

/-- Why there is no step. None of these is an execution fault of the machine: an execution fault is a NEXT state, the
Faulted state that `State.raise` writes (R210). -/
inductive Fault where
  /-- Answered by `step` in the Halted status, which is terminal: no step exists (R100, U21). Safe. -/
  | noStepHalted
  /-- Answered by `step` in the Faulted status, which is terminal: no step exists (R100, R212, U21). Safe. -/
  | noStepFaulted
  /-- Answered by IN when the host has not answered its request: the step has no outcome yet and the state is
  unchanged (R184, U10). Safe. -/
  | awaitingInput
deriving DecidableEq, Repr

/-- Why an instruction has no meaning. No arm of `exec` answers with it: every instruction is modelled. -/
inductive Refusal where
  /-- An arm of `exec` that is not written yet. Safe: the machine stops. -/
  | notModelled (mnemonic : String)
deriving DecidableEq, Repr

/-- The outcome of an instruction or of a step. -/
abbrev Result := Host.Outcome State Fault Refusal

/-- R46 for a machine with the parameters `cfg`, its channels unused. -/
def State.resetWith (cfg : Config) : State :=
  { regs := Vector.replicate 8 0, mem := [], stack := [], pc := 0, halted := false, fault := FaultRecord.empty,
    cfg := cfg, input := [], output := [], checkpoints := [] }

/-- The machine right after reset (R46, R240), with R6's default parameters. -/
def State.reset : State := State.resetWith Config.default

end Sys2Proof.Machine
end

