-- ==== Sys2Proof/Machine/Ops.lean ====
section
/-! DEFINITION. The named operations over registers, memory, stack, instruction pointer and channels, and taking a
fault: the primitives of `00_scope.md` R9 that do not look at an operand word. -/

namespace Sys2Proof.Machine

/-! ### Plain reads and writes of the state -/

/-- `x[r]` (R20). -/
def State.reg (s : State) (r : RegIndex) : Word := s.regs[r]

/-- `x[r] <- v` (R22). -/
def State.setReg (s : State) (r : RegIndex) (v : Word) : State := { s with regs := s.regs.set r v }

/-- `pc <- p` (R24). -/
def State.setPc (s : State) (p : StoredWord) : State := { s with pc := p }

/-- The stack replaced. -/
def State.setStack (s : State) (st : List Word) : State := { s with stack := st }

/-- The memory replaced. -/
def State.setMem (s : State) (m : Memory) : State := { s with mem := m }

/-- `halted <- 1` (R32). -/
def State.setHalted (s : State) : State := { s with halted := true }

/-- The answers that are left on the `in` channel. -/
def State.setInput (s : State) (i : List InputAnswer) : State := { s with input := i }

/-- `sp` (R29). -/
def State.sp (s : State) : Nat := s.stack.length

/-! ### Memory -/

/-- The content of cell `a`; a cell not listed holds 0. -/
def Memory.read : Memory → Nat → StoredWord
  | [], _ => 0
  | (k, w) :: m, a => if k = a then w else Memory.read m a

/-- A cell added to a list in which its address does not occur, in its place by address. -/
def Memory.insertSorted (a : Nat) (v : StoredWord) : Memory → Memory
  | [] => [(a, v)]
  | (k, w) :: m => if a < k then (a, v) :: (k, w) :: m else (k, w) :: Memory.insertSorted a v m

/-- Cell `a` set to `v` and no other cell changed, the canonical form kept. An address above 32767 names no cell (R50,
R51), so nothing is written there. -/
def Memory.write (m : Memory) (a : Nat) (v : StoredWord) : Memory :=
  if a < 32768 then
    let rest := m.filter fun p => p.1 ≠ a
    if v = 0 then rest else Memory.insertSorted a v rest
  else m

/-- The cells `a, a+1, ...` set to the words of a list. -/
def Memory.writeWords (m : Memory) (a : Nat) : List StoredWord → Memory
  | [] => m
  | w :: ws => Memory.writeWords (m.write a w) (a + 1) ws

/-- Every listed address is at least `lo`, is a cell (R50), is above the one before it, and holds a value other than 0. -/
def Memory.wfFrom : Nat → Memory → Bool
  | _, [] => true
  | lo, (k, w) :: m => decide (lo ≤ k) && decide (k < 32768) && decide (w ≠ 0) && Memory.wfFrom (k + 1) m

/-- The canonical form of memory. -/
def Memory.wf (m : Memory) : Bool := Memory.wfFrom 0 m

/-- `MemRead(addr, 1)` (R52). -/
def State.memRead (s : State) (addr : Nat) : StoredWord := s.mem.read addr

/-- `MemWrite(addr, 1, v)` (R53). -/
def State.memWrite (s : State) (addr : Nat) (v : StoredWord) : State := s.setMem (s.mem.write addr v)

/-! ### Taking a fault -/

/-- `raise F(info)` (R210): the fault record is written, nothing else changes, and the machine is Faulted. `instrAddr`
is the address the step latched (R111). -/
def State.raise (s : State) (cause : FaultCause) (info instrAddr : StoredWord) : State :=
  { s with fault := { cause := some cause, info := info, faultPc := s.pc, instrAddr := instrAddr } }

/-- What a primitive of the pseudocode answers: a value and the state after it, or the Faulted state in which the step
ends. -/
inductive Res (α : Type) where
  | ok (a : α) (s : State)
  | raised (s : State)

/-- One primitive after another; a fault ends the sequence (R210). -/
def Res.bind {α β : Type} (r : Res α) (k : α → State → Res β) : Res β :=
  match r with
  | .ok a s => k a s
  | .raised s => .raised s

/-- The end of an instruction after its primitives; a fault is the Faulted state as the next state (R112). -/
def Res.andThen {α : Type} (r : Res α) (k : α → State → Result) : Result :=
  match r with
  | .ok a s => k a s
  | .raised s => .next s

/-! ### Fetch, jump, stack, channels -/

/-- `Fetch()` (R102): the word at `pc`, and `pc` one further; out of range at 32768. -/
def fetch (instrAddr : StoredWord) (s : State) : Res StoredWord :=
  if s.pc.toNat > 32767 then .raised (s.raise .instructionPointerOutOfRange s.pc instrAddr)
  else .ok (s.memRead s.pc.toNat) (s.setPc (s.pc + 1))

/-- `JumpTo(t)` (R139). -/
def jumpTo (instrAddr t : StoredWord) (s : State) : Res Unit :=
  if t.toNat > 32767 then .raised (s.raise .invalidJumpTarget t instrAddr)
  else .ok () (s.setPc t)

/-- `CheckAddr(e)` (R162). -/
def checkAddr (instrAddr e : StoredWord) (s : State) : Res Unit :=
  if e.toNat > 32767 then .raised (s.raise .addressOutOfRange e instrAddr)
  else .ok () s

/-- `Push(v)` (R108). -/
def push (instrAddr : StoredWord) (v : Word) (s : State) : Res Unit :=
  if s.sp = s.cfg.stackCapacity then .raised (s.raise .stackOverflow (v.setWidth 16) instrAddr)
  else .ok () (s.setStack (s.stack ++ [v]))

/-- `Pop()` (R109): the top entry and the state without it; none when the stack is empty, which the caller decides. -/
def pop (s : State) : Option (Word × State) :=
  match s.stack.getLast? with
  | none => none
  | some v => some (v, s.setStack s.stack.dropLast)

/-- `Output(c)` (R181). -/
def State.emit (s : State) (c : Byte) : State := { s with output := s.output ++ [c] }

/-- The machine state a checkpoint carries (R188). -/
def State.snapshot (s : State) : Snapshot :=
  { mem := s.mem, regs := s.regs, stack := s.stack, pc := s.pc, halted := s.halted }

/-- `Checkpoint()` (R188): a request that carries the state as it stands. -/
def State.checkpoint (s : State) : State := { s with checkpoints := s.checkpoints ++ [s.snapshot] }

end Sys2Proof.Machine
end

