-- ==== Sys2Proof/Machine/Operands.lean ====
section
/-! DEFINITION. Operand resolution (`40_step_and_operands.md` R104 to R107) and the six operand formats (`30_encoding.md`
R82). An instruction's operand words are fetched and resolved one at a time, in encoding order, so a fault at one
leaves the later ones unfetched (R107, R211). The word each `fetch` reads is the one the decoder read as the operand
(log entry 4). -/

namespace Sys2Proof.Machine

/-- The value of an operand in a state, where it has one (R85): a Literal's own, a Register reference's current. -/
def valueOf? (s : State) : Operand → Option Word
  | .literal v => some v
  | .register r => some (s.reg r)
  | .invalid _ => none

/-- The register an operand names, where it names one (R86). -/
def registerOf? : Operand → Option RegIndex
  | .literal _ => none
  | .register r => some r
  | .invalid _ => none

/-- `Val(w)` (R104). -/
def val (instrAddr : StoredWord) (o : Operand) (s : State) : Res Word :=
  match valueOf? s o with
  | some v => .ok v s
  | none => .raised (s.raise .invalidOperand o.toWord instrAddr)

/-- `Reg(w)` (R105). -/
def reg (instrAddr : StoredWord) (o : Operand) (s : State) : Res RegIndex :=
  match registerOf? o with
  | some r => .ok r s
  | none => .raised (s.raise .invalidRegister o.toWord instrAddr)

/-- `Val(Fetch())`, the word at the cursor being that of `o`. -/
def fetchVal (instrAddr : StoredWord) (o : Operand) (s : State) : Res Word :=
  (fetch instrAddr s).bind fun _ s => val instrAddr o s

/-- `Reg(Fetch())`, the word at the cursor being that of `o`. -/
def fetchReg (instrAddr : StoredWord) (o : Operand) (s : State) : Res RegIndex :=
  (fetch instrAddr s).bind fun _ s => reg instrAddr o s

/-- Format Z: the opcode word alone. Each format starts in the state whose `pc` is the opcode's address, which is the
`instr_addr` of R111. -/
def operandsZ (s : State) : Res Unit := (fetch s.pc s).bind fun _ t => .ok () t

/-- Format R: one register operand. -/
def operandsR (a : Operand) (s : State) : Res RegIndex :=
  (operandsZ s).bind fun _ t => fetchReg s.pc a t

/-- Format V: one value operand. -/
def operandsV (a : Operand) (s : State) : Res Word :=
  (operandsZ s).bind fun _ t => fetchVal s.pc a t

/-- Format RV: a register operand, then a value operand. -/
def operandsRV (a b : Operand) (s : State) : Res (RegIndex × Word) :=
  (operandsR a s).bind fun d t => (fetchVal s.pc b t).bind fun v t => .ok (d, v) t

/-- Format VV: two value operands. -/
def operandsVV (a b : Operand) (s : State) : Res (Word × Word) :=
  (operandsV a s).bind fun v t => (fetchVal s.pc b t).bind fun w t => .ok (v, w) t

/-- Format RVV: a register operand, then two value operands. -/
def operandsRVV (a b c : Operand) (s : State) : Res (RegIndex × Word × Word) :=
  (operandsRV a b s).bind fun p t => (fetchVal s.pc c t).bind fun w t => .ok (p.1, p.2, w) t

end Sys2Proof.Machine
end

