-- ==== Sys2Proof/Machine/Alu.lean ====
section
/-! DEFINITION. ADD, MULT, MOD, AND, OR, NOT (`44_alu.md`). Sums and products are formed exactly and then reduced
modulo 32768 (R151, R152). -/

namespace Sys2Proof.Machine

/-- R145: the sum modulo 32768. -/
def aluAdd (v w : Word) : Word := BitVec.ofNat 15 ((v.toNat + w.toNat) % 32768)

/-- R146: the product modulo 32768. -/
def aluMult (v w : Word) : Word := BitVec.ofNat 15 ((v.toNat * w.toNat) % 32768)

/-- R153: the remainder of the unsigned division, for `w` other than 0. -/
def aluMod (v w : Word) : Word := BitVec.ofNat 15 (v.toNat % w.toNat)

/-- R148. -/
def aluAnd (v w : Word) : Word := v &&& w

/-- R149. -/
def aluOr (v w : Word) : Word := v ||| w

/-- R150: the complement on 15 bits. -/
def aluNot (v : Word) : Word := ~~~v

/-- R145. -/
def execAdd (a b c : Operand) (s : State) : Result :=
  (operandsRVV a b c s).andThen fun p t => .next (t.setReg p.1 (aluAdd p.2.1 p.2.2))

/-- R146. -/
def execMult (a b c : Operand) (s : State) : Result :=
  (operandsRVV a b c s).andThen fun p t => .next (t.setReg p.1 (aluMult p.2.1 p.2.2))

/-- R147: a zero divisor faults after all operands are resolved, with the divisor's operand word. -/
def execMod (a b c : Operand) (s : State) : Result :=
  (operandsRVV a b c s).andThen fun p t =>
    if p.2.2 = 0 then .next (t.raise .divisionByZero c.toWord s.pc)
    else .next (t.setReg p.1 (aluMod p.2.1 p.2.2))

/-- R148. -/
def execAnd (a b c : Operand) (s : State) : Result :=
  (operandsRVV a b c s).andThen fun p t => .next (t.setReg p.1 (aluAnd p.2.1 p.2.2))

/-- R149. -/
def execOr (a b c : Operand) (s : State) : Result :=
  (operandsRVV a b c s).andThen fun p t => .next (t.setReg p.1 (aluOr p.2.1 p.2.2))

/-- R150. -/
def execNot (a b : Operand) (s : State) : Result :=
  (operandsRV a b s).andThen fun p t => .next (t.setReg p.1 (aluNot p.2))

end Sys2Proof.Machine
end

