-- ==== Sys2Proof/Machine/CallReturn.lean ====
section
/-! DEFINITION. CALL, RET (`46_call_return.md`). -/

namespace Sys2Proof.Machine

/-- R170, R173: the address after the operand word, which must be the address of a cell. -/
def returnAddress (instrAddr : StoredWord) (s : State) : Res Word :=
  if s.pc.toNat > 32767 then .raised (s.raise .instructionPointerOutOfRange s.pc instrAddr)
  else .ok (s.pc.setWidth 15) s

/-- R170: the return address is checked, then pushed, then the jump is made. -/
def execCall (a : Operand) (s : State) : Result :=
  (operandsV a s).andThen fun target t =>
    (returnAddress s.pc t).andThen fun back t =>
      (push s.pc back t).andThen fun _ t =>
        (jumpTo s.pc (target.setWidth 16) t).andThen fun _ t => .next t

/-- R171, R172: a normal halt when the stack is empty. -/
def execRet (s : State) : Result :=
  (operandsZ s).andThen fun _ t =>
    match pop t with
    | none => .next t.setHalted
    | some (target, t) => (jumpTo s.pc (target.setWidth 16) t).andThen fun _ t => .next t

end Sys2Proof.Machine
end

