-- ==== Sys2Proof/Machine/Compare.lean ====
section
/-! DEFINITION. EQ, GT (`42_compare.md`): unsigned, the result 0 or 1 in a register (R132). -/

namespace Sys2Proof.Machine

/-- A comparison's result as a Word (R132). -/
def wordOfBool (b : Bool) : Word := if b then 1 else 0

/-- R130. -/
def execEq (a b c : Operand) (s : State) : Result :=
  (operandsRVV a b c s).andThen fun p t => .next (t.setReg p.1 (wordOfBool (decide (p.2.1.toNat = p.2.2.toNat))))

/-- R131. -/
def execGt (a b c : Operand) (s : State) : Result :=
  (operandsRVV a b c s).andThen fun p t => .next (t.setReg p.1 (wordOfBool (decide (p.2.1.toNat > p.2.2.toNat))))

end Sys2Proof.Machine
end

