-- ==== Sys2Proof/Machine/HaltNop.lean ====
section
/-! DEFINITION. HALT, NOP (`48_halt_nop.md`). -/

namespace Sys2Proof.Machine

/-- R195. -/
def execHalt (s : State) : Result := (operandsZ s).andThen fun _ t => .next t.setHalted

/-- R196. -/
def execNop (s : State) : Result := (operandsZ s).andThen fun _ t => .next t

end Sys2Proof.Machine
end

