-- ==== Sys2Proof/Machine/InputOutput.lean ====
section
/-! DEFINITION. OUT, IN and the checkpoint trigger (`47_io.md`). -/

namespace Sys2Proof.Machine

/-- R180, R182: the low 8 bits of the value are sent. -/
def execOut (a : Operand) (s : State) : Result :=
  (operandsV a s).andThen fun v t => .next (t.emit (v.setWidth 8))

/-- What IN does with a character (R185): the code goes to the register masked to 15 bits; a newline, tested on the code
as received (R189), then requests a checkpoint. -/
def acceptChar (d : RegIndex) (code : Nat) (s : State) : State :=
  let t := s.setReg d (BitVec.ofNat 15 (code % 32768))
  if code = 10 then t.checkpoint else t

/-- R184 to R187: the register operand is resolved before the host is asked. Where the host has not answered, the
step has no outcome (U10). -/
def execInput (a : Operand) (s : State) : Result :=
  (operandsR a s).andThen fun d t =>
    match t.input with
    | [] => .fault .awaitingInput
    | .eof :: rest => .next (t.setInput rest).setHalted
    | .char code :: rest => .next (acceptChar d code (t.setInput rest))

end Sys2Proof.Machine
end

