-- ==== Sys2Proof/Machine/Jump.lean ====
section
/-! DEFINITION. JMP, JT, JF (`43_jumps.md`). JT and JF resolve both operands whether or not the jump is taken (R138). -/

namespace Sys2Proof.Machine

/-- A jump to a Word when the condition holds; otherwise `pc` stays where the operands left it. -/
def jumpIf (cond : Bool) (instrAddr : StoredWord) (target : Word) (s : State) : Result :=
  if cond then (jumpTo instrAddr (target.setWidth 16) s).andThen fun _ t => .next t else .next s

/-- R135. -/
def execJmp (a : Operand) (s : State) : Result :=
  (operandsV a s).andThen fun target t => jumpIf true s.pc target t

/-- R136. -/
def execJt (a b : Operand) (s : State) : Result :=
  (operandsVV a b s).andThen fun p t => jumpIf (decide (p.1 ≠ 0)) s.pc p.2 t

/-- R137. -/
def execJf (a b : Operand) (s : State) : Result :=
  (operandsVV a b s).andThen fun p t => jumpIf (decide (p.1 = 0)) s.pc p.2 t

end Sys2Proof.Machine
end

