-- ==== Sys2Proof/Machine/MemoryAccess.lean ====
section
/-! DEFINITION. RMEM, WMEM (`45_memory_access.md`). The effective address is the resolved value of the address operand
(R163); the range check of R162 is made as the rule has it, though no value reaches it. -/

namespace Sys2Proof.Machine

/-- R160: bit 15 of the cell is dropped. -/
def execRmem (a b : Operand) (s : State) : Result :=
  (operandsRV a b s).andThen fun p t =>
    (checkAddr s.pc (p.2.setWidth 16) t).andThen fun _ t =>
      .next (t.setReg p.1 ((t.memRead p.2.toNat).setWidth 15))

/-- R161. -/
def execWmem (a b : Operand) (s : State) : Result :=
  (operandsVV a b s).andThen fun p t =>
    (checkAddr s.pc (p.1.setWidth 16) t).andThen fun _ t =>
      .next (t.memWrite p.1.toNat (p.2.setWidth 16))

end Sys2Proof.Machine
end

