-- ==== Sys2Proof/Machine/Move.lean ====
section
/-! DEFINITION. SET, PUSH, POP (`41_move_and_stack.md`). -/

namespace Sys2Proof.Machine

/-- R120. -/
def execSet (a b : Operand) (s : State) : Result :=
  (operandsRV a b s).andThen fun p t => .next (t.setReg p.1 p.2)

/-- R121. -/
def execPush (a : Operand) (s : State) : Result :=
  (operandsV a s).andThen fun v t => (push s.pc v t).andThen fun _ t => .next t

/-- R122: the operand is resolved before the stack is examined. -/
def execPop (a : Operand) (s : State) : Result :=
  (operandsR a s).andThen fun d t =>
    match pop t with
    | none => .next (t.raise .stackUnderflow 0 s.pc)
    | some (v, t) => .next (t.setReg d v)

end Sys2Proof.Machine
end

