-- ==== Sys2Proof/Machine/Fetch.lean ====
section
/-! DEFINITION. Fetching an instruction (`40_step_and_operands.md` R102, R103, R110): the opcode fetch and the dispatch, and
where the host places an instruction. -/

namespace Sys2Proof.Machine

/-- The instruction at `pc`, read from the four cells there. A cell above 32767 does not exist and reads as 0 here; the
instruction's own fetch faults before it uses such a word (log entry 4). -/
def instrAt (s : State) : Option Instr :=
  let p := s.pc.toNat
  decodeWindow (s.memRead p) (s.memRead (p + 1)) (s.memRead (p + 2)) (s.memRead (p + 3))

/-- The opcode fetch and dispatch of R110: the instruction to run, or the Faulted state (R102 at 32768, R103 on an
opcode word that is none of the 22). -/
def fetchInstr (s : State) : Except State Instr :=
  match fetch s.pc s with
  | .raised t => .error t
  | .ok op t =>
    match instrAt s with
    | none => .error (t.raise .unknownOpcode op s.pc)
    | some i => .ok i

/-- The words of a table word stored where the next opcode is fetched. -/
def placeTableWord (s : State) (nbits w : Nat) : State :=
  s.setMem (s.mem.writeWords s.pc.toNat (tableWords nbits w))

end Sys2Proof.Machine
end

