-- ==== Sys2Proof/Machine/Flags.lean ====
section
/-! DEFINITION. Flags and status. The machine has no condition codes (`10_state.md` R35); its only flag is `halted` (R32),
and what the `status` channel shows is derived from it and from the fault record (R34, `60_exceptions.md` R200, R216). -/

namespace Sys2Proof.Machine

/-- R34: Faulted when there is a fault, otherwise Halted when the flag is set, otherwise Running. -/
def State.status (s : State) : Status :=
  if s.fault.cause.isSome then .faulted else if s.halted then .halted else .running

/-- R200: the code of a cause. -/
def FaultCause.code : FaultCause → BitVec 4
  | .invalidOperand => 1
  | .invalidRegister => 2
  | .invalidJumpTarget => 3
  | .instructionPointerOutOfRange => 4
  | .stackOverflow => 5
  | .stackUnderflow => 6
  | .unknownOpcode => 7
  | .divisionByZero => 8
  | .addressOutOfRange => 9

/-- R33: the 4-bit `cause` field, 0 for no fault. -/
def FaultRecord.causeCode (f : FaultRecord) : BitVec 4 :=
  match f.cause with
  | none => 0
  | some c => c.code

/-- R216: the exit status the `status` channel shows; none while Running. -/
def State.exitStatus (s : State) : Option Nat :=
  match s.status with
  | .running => none
  | .halted => some 0
  | .faulted => some 1

end Sys2Proof.Machine
end

