-- ==== Sys2Proof/Machine/Step.lean ====
section
/-! DEFINITION. One step (`40_step_and_operands.md` R100, R101, R110). -/

namespace Sys2Proof.Machine

/-- One step: none in a terminal status (R100); otherwise the opcode is fetched and dispatched, and the instruction is
executed whole (R101). -/
def step (s : State) : Host.Outcome State Fault Refusal :=
  match s.status with
  | .halted => .fault .noStepHalted
  | .faulted => .fault .noStepFaulted
  | .running =>
    match fetchInstr s with
    | .error t => .next t
    | .ok i => exec i s

/-- The state with one instruction stored where `step` fetches its next one (log entry 6). -/
def State.withFetchWord (s : State) (nbits w : Nat) : State := placeTableWord s nbits w

end Sys2Proof.Machine
end

