-- ==== Sys2Proof/Machine/Pseudocode.lean ====
section
/-! DEFINITION. The spec's pseudocode of the whole step, written down as it stands: R110, the 22 `exec_` blocks, and `Val`
and `Reg` on raw words. Every word is fetched from memory at the moment the pseudocode fetches it, and no decoder is
used. `step` does not use this file: it is what `step` is compared with (an obligation says the two agree). -/

namespace Sys2Proof.Machine.Pseudocode

/-- R104. -/
def valWord (instrAddr w : StoredWord) (s : State) : Res Word :=
  if w.toNat < 32768 then .ok (w.setWidth 15) s
  else if h : w.toNat < 32776 then .ok (s.reg ⟨w.toNat - 32768, by omega⟩) s
  else .raised (s.raise .invalidOperand w instrAddr)

/-- R105. -/
def regWord (instrAddr w : StoredWord) (s : State) : Res RegIndex :=
  if h : 32768 ≤ w.toNat ∧ w.toNat < 32776 then .ok ⟨w.toNat - 32768, by omega⟩ s
  else .raised (s.raise .invalidRegister w instrAddr)

/-- `Val(Fetch())`. -/
def valFetch (instrAddr : StoredWord) (s : State) : Res Word :=
  (fetch instrAddr s).bind fun w s => valWord instrAddr w s

/-- `Reg(Fetch())`. -/
def regFetch (instrAddr : StoredWord) (s : State) : Res RegIndex :=
  (fetch instrAddr s).bind fun w s => regWord instrAddr w s

/-- The blocks of EQ, GT, ADD, MULT, AND and OR, which differ in the value they write. -/
def execBinary (f : Word → Word → Word) (ia : StoredWord) (s : State) : Result :=
  (regFetch ia s).andThen fun d s =>
  (valFetch ia s).andThen fun vb s =>
  (valFetch ia s).andThen fun vc s =>
  .next (s.setReg d (f vb vc))

/-- The blocks of SET, NOT. -/
def execUnary (f : Word → Word) (ia : StoredWord) (s : State) : Result :=
  (regFetch ia s).andThen fun d s =>
  (valFetch ia s).andThen fun v s =>
  .next (s.setReg d (f v))

/-- The blocks of JT, JF. -/
def execBranch (taken : Word → Bool) (ia : StoredWord) (s : State) : Result :=
  (valFetch ia s).andThen fun vc s =>
  (valFetch ia s).andThen fun t s =>
  if taken vc then (jumpTo ia (t.setWidth 16) s).andThen fun _ s => .next s else .next s

/-- R121. -/
def execPUSH (ia : StoredWord) (s : State) : Result :=
  (valFetch ia s).andThen fun v s =>
  (push ia v s).andThen fun _ s =>
  .next s

/-- R122. -/
def execPOP (ia : StoredWord) (s : State) : Result :=
  (regFetch ia s).andThen fun d s =>
  match pop s with
  | none => .next (s.raise .stackUnderflow 0 ia)
  | some (v, s) => .next (s.setReg d v)

/-- R135. -/
def execJMP (ia : StoredWord) (s : State) : Result :=
  (valFetch ia s).andThen fun t s =>
  (jumpTo ia (t.setWidth 16) s).andThen fun _ s =>
  .next s

/-- R147. -/
def execMOD (ia : StoredWord) (s : State) : Result :=
  (regFetch ia s).andThen fun d s =>
  (valFetch ia s).andThen fun vb s =>
  (fetch ia s).andThen fun c s =>
  (valWord ia c s).andThen fun vc s =>
  if vc = 0 then .next (s.raise .divisionByZero c ia)
  else .next (s.setReg d (BitVec.ofNat 15 (vb.toNat % vc.toNat)))

/-- R160. -/
def execRMEM (ia : StoredWord) (s : State) : Result :=
  (regFetch ia s).andThen fun d s =>
  (valFetch ia s).andThen fun e s =>
  (checkAddr ia (e.setWidth 16) s).andThen fun _ s =>
  .next (s.setReg d ((s.memRead e.toNat).setWidth 15))

/-- R161. -/
def execWMEM (ia : StoredWord) (s : State) : Result :=
  (valFetch ia s).andThen fun e s =>
  (valFetch ia s).andThen fun v s =>
  (checkAddr ia (e.setWidth 16) s).andThen fun _ s =>
  .next (s.memWrite e.toNat (v.setWidth 16))

/-- R170. -/
def execCALL (ia : StoredWord) (s : State) : Result :=
  (valFetch ia s).andThen fun t s =>
  if s.pc.toNat > 32767 then .next (s.raise .instructionPointerOutOfRange s.pc ia)
  else
    (push ia (s.pc.setWidth 15) s).andThen fun _ s =>
    (jumpTo ia (t.setWidth 16) s).andThen fun _ s =>
    .next s

/-- R171. -/
def execRET (ia : StoredWord) (s : State) : Result :=
  match pop s with
  | none => .next { s with halted := true }
  | some (t, s) => (jumpTo ia (t.setWidth 16) s).andThen fun _ s => .next s

/-- R180. -/
def execOUT (ia : StoredWord) (s : State) : Result :=
  (valFetch ia s).andThen fun v s =>
  .next (s.emit (v.setWidth 8))

/-- R185, the answer taken from the channel; no outcome while there is none (U10). -/
def execIN (ia : StoredWord) (s : State) : Result :=
  (regFetch ia s).andThen fun d s =>
  match s.input with
  | [] => .fault .awaitingInput
  | .eof :: rest => .next { s with input := rest, halted := true }
  | .char c :: rest =>
    let s := { s with input := rest }
    let s := s.setReg d (BitVec.ofNat 15 (c % 32768))
    if c = 10 then .next s.checkpoint else .next s

/-- R110. -/
def step (s : State) : Result :=
  match s.status with
  | .halted => .fault .noStepHalted
  | .faulted => .fault .noStepFaulted
  | .running =>
    let ia := s.pc
    (fetch ia s).andThen fun op s =>
    match op.toNat with
    | 0 => .next { s with halted := true }
    | 1 => execUnary (fun v => v) ia s
    | 2 => execPUSH ia s
    | 3 => execPOP ia s
    | 4 => execBinary (fun vb vc => if vb = vc then 1 else 0) ia s
    | 5 => execBinary (fun vb vc => if vb.toNat > vc.toNat then 1 else 0) ia s
    | 6 => execJMP ia s
    | 7 => execBranch (fun vc => vc != 0) ia s
    | 8 => execBranch (fun vc => vc == 0) ia s
    | 9 => execBinary (fun vb vc => BitVec.ofNat 15 ((vb.toNat + vc.toNat) % 32768)) ia s
    | 10 => execBinary (fun vb vc => BitVec.ofNat 15 ((vb.toNat * vc.toNat) % 32768)) ia s
    | 11 => execMOD ia s
    | 12 => execBinary (fun vb vc => vb &&& vc) ia s
    | 13 => execBinary (fun vb vc => vb ||| vc) ia s
    | 14 => execUnary (fun v => (~~~(v.setWidth 16)).setWidth 15) ia s
    | 15 => execRMEM ia s
    | 16 => execWMEM ia s
    | 17 => execCALL ia s
    | 18 => execRET ia s
    | 19 => execOUT ia s
    | 20 => execIN ia s
    | 21 => .next s
    | _ => .next (s.raise .unknownOpcode op ia)

end Sys2Proof.Machine.Pseudocode
end

