-- ==== Sys2Proof/Machine/Relation.lean ====
section
/-! DEFINITION. The step as a relation (`40_step_and_operands.md` R112): what it reads is the machine state of R47 and one
answer of the host, what it writes is the machine state and the events it emits. -/

namespace Sys2Proof.Machine

/-- A machine state with nothing around it but the host's answer to the next request, where the host has given one. -/
def MachineState.alone (m : MachineState) (cfg : Config) (answer : Option InputAnswer) : State :=
  { toMachineState := m, cfg := cfg, input := answer.toList, output := [], checkpoints := [] }

/-- A step of the machine alone: the state it leads to holds the new machine state, the events of this one step on `output`
and `checkpoints`, and the answer on `input` if the step did not take it. -/
def MachineState.step (m : MachineState) (cfg : Config) (answer : Option InputAnswer) : Result :=
  Machine.step (m.alone cfg answer)

/-- The events of a step of the machine alone added to the channels of `s`, whose first answer was the one on offer. -/
def State.record (s t : State) : State :=
  { t with input := t.input ++ s.input.tail, output := s.output ++ t.output,
           checkpoints := s.checkpoints ++ t.checkpoints }

/-- An outcome whose next state is taken through a function. -/
def Result.mapNext (r : Result) (f : State → State) : Result :=
  match r with
  | .next t => .next (f t)
  | .fault e => .fault e
  | .refused e => .refused e

end Sys2Proof.Machine
end

