-- ==== Sys2Proof/Machine/Boot.lean ====
section
/-! DEFINITION. The host's side of the interface (`10_state.md` R39): reset, load, restore, input, exit status, debug read
(`20_memory.md` R56 to R60, `70_reset_and_hazards.md` R240 to R248, `60_exceptions.md` R216, R224). No step uses it. -/

namespace Sys2Proof.Machine

/-- Why the engine is not started (R57, R59, R247). -/
inductive LoadError where
  /-- R57: the image cannot be opened or read. -/
  | unreadable
  /-- R57: the image has an odd number of bytes. -/
  | oddLength
  /-- R59: the image has more than 32768 words. -/
  | tooLong
  /-- R247: the checkpoint breaks an invariant. -/
  | badCheckpoint
deriving DecidableEq, Repr

/-- R56: words in consecutive cells from address `a` on, the rest of memory 0, in the canonical form. -/
def memoryOfWords : Nat → List StoredWord → Memory
  | _, [] => []
  | a, w :: ws => if w = 0 then memoryOfWords (a + 1) ws else (a, w) :: memoryOfWords (a + 1) ws

/-- The `load` channel (R56 to R60): the memory an image defines; `none` is an image that cannot be read. -/
def loadImage (image : Option (List Byte)) : Except LoadError Memory :=
  match image with
  | none => .error .unreadable
  | some bytes =>
    match wordsOfBytes bytes with
    | none => .error .oddLength
    | some ws => if ws.length > 32768 then .error .tooLong else .ok (memoryOfWords 0 ws)

/-- R247: what a restored state must satisfy; registers and stack entries are Words by their type. -/
def Snapshot.valid (cfg : Config) (c : Snapshot) : Bool :=
  c.mem.wf && decide (c.stack.length ≤ cfg.stackCapacity) && decide (c.pc.toNat ≤ 32768)

/-- The `restore` channel (R246): the machine state is replaced and the fault record left empty; R247 refuses a record
that breaks an invariant. -/
def restore (c : Snapshot) (s : State) : Except LoadError State :=
  if c.valid s.cfg then
    .ok { s with mem := c.mem, regs := c.regs, stack := c.stack, pc := c.pc, halted := c.halted,
                 fault := FaultRecord.empty }
  else .error .badCheckpoint

/-- R184: an answer the `in` channel can carry. -/
def InputAnswer.valid (cfg : Config) : InputAnswer → Bool
  | .char c => decide (c < 2 ^ cfg.inWidth)
  | .eof => true

/-- The answers the `in` channel carries (R39, R184): `Char(c)` with `0 <= c < 2^IN_WIDTH`, or `Eof`. -/
abbrev ChannelAnswer (cfg : Config) := { a : InputAnswer // a.valid cfg = true }

/-- R242, R241: the start state of a run, or why there is none. The host's answers are ones the channel can carry. -/
def start (cfg : Config) (image : Option (List Byte)) (saved : Option Snapshot) (input : List (ChannelAnswer cfg)) :
    Except LoadError State :=
  match loadImage image with
  | .error e => .error e
  | .ok m =>
    let s := { State.resetWith cfg with mem := m, input := input.map fun a => a.val }
    match saved with
    | none => .ok s
    | some c => restore c s

/-- The `reset` channel (R240): the machine state as R46 has it; the parameters and the host's channels are not the
machine's and stay. -/
def hostReset (s : State) : State :=
  { State.resetWith s.cfg with input := s.input, output := s.output, checkpoints := s.checkpoints }

/-- The host answers one more request (R184); none when the channel cannot carry the answer. -/
def offerInput (a : InputAnswer) (s : State) : Option State :=
  if a.valid s.cfg then some (s.setInput (s.input ++ [a])) else none

/-- The exit status of a start (R216, R217): a failed load shows 1 and takes no step. -/
def startExitStatus : Except LoadError State → Option Nat
  | .error _ => some 1
  | .ok s => s.exitStatus

/-- The `debug read` channel (R224): the content of a cell; none where there is no cell. -/
def debugRead (s : State) (addr : Nat) : Option StoredWord :=
  if addr ≤ 32767 then some (s.memRead addr) else none

end Sys2Proof.Machine
end

