-- ==== Sys2Proof/Safety.lean ====
section
/-! DEFINITION. The terms in which statements speak: how a run ends (`40_step_and_operands.md` R113), the invariant of the
machine (`10_state.md` R27, R30, R34), what a fault record may hold (`60_exceptions.md` R200 to R209), and the operand
fault an instruction takes, said as a search through its operands instead of a run through them (R215). -/

namespace Sys2Proof.Machine

/-- R113: a run ends normally in a state that is Halted and has no fault. -/
def State.endedNormally (s : State) : Prop := s.halted = true ∧ s.fault.cause = none

/-- R113, R212: a run ends abnormally in a Faulted state; a safe run never reaches one. -/
def State.endedAbnormally (s : State) : Prop := s.fault.cause ≠ none

/-- R201 to R209: what each cause may record as `info`. The two causes of C3 are recorded by no step. -/
def FaultRecord.infoFits (f : FaultRecord) : Bool :=
  match f.cause with
  | none => true
  | some .invalidOperand => decide (32776 ≤ f.info.toNat)
  | some .invalidRegister => decide (f.info.toNat < 32768 ∨ 32776 ≤ f.info.toNat)
  | some .invalidJumpTarget => false
  | some .instructionPointerOutOfRange => decide (f.info = 32768)
  | some .stackOverflow => decide (f.info.toNat ≤ 32767)
  | some .stackUnderflow => decide (f.info = 0)
  | some .unknownOpcode => decide (22 ≤ f.info.toNat)
  | some .divisionByZero => decide (f.info = 0 ∨ (32768 ≤ f.info.toNat ∧ f.info.toNat ≤ 32775))
  | some .addressOutOfRange => false

/-- The fault record agrees with the machine: `info` fits the cause (R201 to R209), in the Faulted status `pc` is the
cursor that was recorded (R210) and the flag `halted` is clear (R34), and without a fault the record is empty (R33:
it "is written once, by `raise`"). -/
def State.FaultOk (s : State) : Prop :=
  s.fault.infoFits = true ∧ (s.fault.cause ≠ none → s.fault.faultPc = s.pc ∧ s.halted = false) ∧
    (s.fault.cause = none → s.fault = FaultRecord.empty)

/-- R248: every checkpoint sent satisfies R247 and has `halted = 0`. -/
def State.CheckpointsOk (s : State) : Prop :=
  ∀ c ∈ s.checkpoints, c.valid s.cfg = true ∧ c.halted = false

/-- R39, R184: every answer that waits on the `in` channel is one it can carry. -/
def State.InputOk (s : State) : Prop := ∀ a ∈ s.input, a.valid s.cfg = true

/-- The invariant: memory in canonical form, `pc` at most 32768 (R27), the stack within its capacity (R30), the fault
record, the checkpoints and the answers as they must be. R7 and R23 hold by the types. -/
def State.Inv (s : State) : Prop :=
  s.mem.wf = true ∧ s.pc.toNat ≤ 32768 ∧ s.stack.length ≤ s.cfg.stackCapacity ∧ s.FaultOk ∧ s.CheckpointsOk ∧ s.InputOk

/-- A fault met while the operands are fetched and resolved: its cause and `info`, and how many words of the instruction
the cursor has passed. -/
structure Trap where
  cause : FaultCause
  info : StoredWord
  words : Nat
deriving DecidableEq, Repr

/-- The cause an operand that is illegal in its position raises (R201, R202). -/
def operandCause : OperandKind → FaultCause
  | .reg => .invalidRegister
  | .val => .invalidOperand

/-- R215 (3): the first fault among the operands from word `k` of the instruction on: for each operand word in encoding
order its fetch, which is out of range past 32767, then its resolution. -/
def firstOperandFault (pc : Nat) : Nat → List (OperandKind × Operand) → Option Trap
  | _, [] => none
  | k, (kind, o) :: rest =>
    if pc + k > 32767 then some { cause := .instructionPointerOutOfRange, info := 32768, words := k }
    else if kind.accepts o then firstOperandFault pc (k + 1) rest
    else some { cause := operandCause kind, info := o.toWord, words := k + 1 }

/-- The operand fault of an instruction whose opcode word stands at `pc`, if it has one. -/
def operandTrap (s : State) (i : Instr) : Option Trap := firstOperandFault s.pc.toNat 1 i.operands

/-- The state a trap leaves (R210, R211): `pc` at the cursor and the fault record written, nothing else changed. -/
def State.trapped (s : State) (tr : Trap) : State :=
  { s with pc := s.pc + BitVec.ofNat 16 tr.words,
           fault := { cause := some tr.cause, info := tr.info, faultPc := s.pc + BitVec.ofNat 16 tr.words,
                      instrAddr := s.pc } }

/-- An instruction with an operand fault takes the first one and does nothing else (R107, R211, R215). -/
def TrapsOnOperands (i : Instr) : Prop :=
  ∀ (s : State) (tr : Trap), s.pc.toNat ≤ 32767 → operandTrap s i = some tr → exec i s = .next (s.trapped tr)

/-- All `n` words of an instruction whose opcode word stands at `pc` are in memory. -/
def State.Room (s : State) (n : Nat) : Prop := s.pc.toNat + n ≤ 32768

/-- The register an instruction may write (R22): the one its register operand names. -/
def destination : Instr → Option RegIndex
  | .set a _ | .pop a | .eq a _ _ | .gt a _ _ | .add a _ _ | .mult a _ _ | .mod a _ _ | .and a _ _ | .or a _ _
  | .not a _ | .rmem a _ | .input a => registerOf? a
  | .halt | .push _ | .jmp _ | .jt _ _ | .jf _ _ | .wmem _ _ | .call _ | .ret | .out _ | .nop => none

/-- The address an instruction may store to (R51, R161): the value of WMEM's first operand, nothing for the others. -/
def storeAddress (s : State) : Instr → Option Nat
  | .wmem a _ => (valueOf? s a).map fun e => e.toNat
  | .halt | .set _ _ | .push _ | .pop _ | .eq _ _ _ | .gt _ _ _ | .jmp _ | .jt _ _ | .jf _ _ | .add _ _ _
  | .mult _ _ _ | .mod _ _ _ | .and _ _ _ | .or _ _ _ | .not _ _ | .rmem _ _ | .call _ | .ret | .out _ | .input _
  | .nop => none

end Sys2Proof.Machine
end

