-- ==== Sys2Proof/Certificates/Slice0/Obligations.lean ====
section
/-! DEFINITION. The statements for the provers. Each docstring names the rules of `spec/` it formalises. Where a clause
rests on one of the spec's own decisions (D<n> of `92_eei_decisions.md`) the docstring says which. They are recorded in the
log entries 5 (D25), 7 (D15), 8 (D1), 9 (D7, D28, and N6's reading of AND and OR), 10 (D9 to D13), 11 (D4, D5, D6, D8, D29),
12 (D14, D19, D20, D21), 13 (D16, D17, D26) and 17 (D3). -/

open Sys2Proof Sys2Proof.Machine

/-! ### Encoding -/

/-- R80, R82, R83, R88 (numbers: D1): the decoder reads every well-formed instruction, every operand at every value,
back from its words, and leaves what follows them. -/
def Obligations.DecodeEncodeRoundTrip : Prop :=
  ∀ (i : Instr) (rest : List StoredWord), i.wf = true → decode (encode i ++ rest) = .instr i rest

/-- R81, R83, R88: a decoded word list is exactly the words of the well-formed instruction it decodes to, and the rest. -/
def Obligations.DecodedWordsEncodeBack : Prop :=
  ∀ (ws rest : List StoredWord) (i : Instr), decode ws = .instr i rest → i.wf = true ∧ encode i ++ rest = ws

/-- R84: an instruction is 1 + its operand count words long, and the operand count depends on the opcode alone, as
R84's table has it. -/
def Obligations.InstructionLengthTable : Prop :=
  ∀ i : Instr, (encode i).length = i.length ∧
    i.length = 1 + [0, 2, 1, 1, 3, 3, 1, 2, 2, 3, 3, 3, 3, 3, 2, 2, 2, 1, 0, 1, 1, 0].getD i.opcode.toNat 0

/-- R83: the three ranges of an operand word. -/
def Obligations.OperandWordRanges : Prop :=
  ∀ w : StoredWord,
    (w.toNat < 32768 → ∃ v : Word, Operand.ofWord w = .literal v ∧ v.toNat = w.toNat) ∧
    (∀ r : RegIndex, w.toNat = 32768 + r.val → Operand.ofWord w = .register r) ∧
    (32776 ≤ w.toNat → Operand.ofWord w = .invalid w)

/-- Words of `95_test_vectors.md` (S1, M3, M6, C3, J3, L7, K1, I4, H1 and the lone RET), one for each family, decode to the
instructions they stand for; 22 is no opcode (F1). The opcode numbers are D1's. -/
def Obligations.WrittenOutWordsDecode : Prop :=
  decode [9, 32768, 32767, 2] = .instr (.add (.register 0) (.literal 32767) (.literal 2)) [] ∧
  decode [2, 32770] = .instr (.push (.register 2)) [] ∧
  decode [3, 32768] = .instr (.pop (.register 0)) [] ∧
  decode [5, 32770, 32767, 0] = .instr (.gt (.register 2) (.literal 32767) (.literal 0)) [] ∧
  decode [7, 32768, 3] = .instr (.jt (.register 0) (.literal 3)) [] ∧
  decode [16, 100, 32768] = .instr (.wmem (.literal 100) (.register 0)) [] ∧
  decode [17, 6] = .instr (.call (.literal 6)) [] ∧
  decode [18] = .instr .ret [] ∧
  decode [20, 32768] = .instr (.input (.register 0)) [] ∧
  decode [0] = .instr .halt [] ∧
  decode [22] = .refused (.unknownOpcode 22)

/-! ### The step -/

/-- R103, R110 (numbers: D1, log 8; the whole opcode word compared, unresolved: D28, log 9; the record:
D17, log 13): an opcode word below 22 runs the instruction it is the opcode of; any other faults with
`UnknownOpcode`, `pc` one past it, nothing else changed. -/
def Obligations.OpcodeDispatch : Prop :=
  ∀ s : State, s.status = .running → s.pc.toNat ≤ 32767 →
    ((s.memRead s.pc.toNat).toNat < 22 →
      ∃ i, instrAt s = some i ∧ i.opcode = s.memRead s.pc.toNat ∧ step s = exec i s) ∧
    (22 ≤ (s.memRead s.pc.toNat).toNat →
      step s = .next (s.trapped { cause := .unknownOpcode, info := s.memRead s.pc.toNat, words := 1 }))

/-- R101, R110: in the Running status, when the words at `pc` decode to an instruction, the step is that instruction
executed in the same state; nothing is added around it. -/
def Obligations.StepRunsTheDecodedInstruction : Prop :=
  ∀ (s : State) (i : Instr) (rest : List StoredWord), s.status = .running → s.pc.toNat ≤ 32767 →
    decode [s.memRead s.pc.toNat, s.memRead (s.pc.toNat + 1), s.memRead (s.pc.toNat + 2),
      s.memRead (s.pc.toNat + 3)] = .instr i rest →
    i.wf = true ∧ step s = exec i s

/-- R80, R102: word `k` of the instruction a step runs is the word in memory at `pc + k`. -/
def Obligations.StepReadsTheInstructionStream : Prop :=
  ∀ (s : State) (i : Instr) (k : Nat), instrAt s = some i → k < i.length →
    (encode i)[k]? = some (s.memRead (s.pc.toNat + k))

/-- R110: the step, which decodes ahead, is the spec's pseudocode, which fetches each word when it needs it, in every
state. The blocks carry the spec's decisions D1 (log 8), D7, D28 (log 9), D9 to D13 (log 10), D4, D5, D6, D8, D29 (log 11),
D17 (log 13) and D25 (log 5). -/
def Obligations.StepIsTheSpecPseudocode : Prop :=
  ∀ s : State, step s = Pseudocode.step s

/-- R100 (D25): no step in the Halted and Faulted statuses; in the Running status there is never that stop. -/
def Obligations.StepOnlyInRunningStatus : Prop :=
  ∀ s : State,
    (s.status = .halted → step s = .fault .noStepHalted) ∧
    (s.status = .faulted → step s = .fault .noStepFaulted) ∧
    (s.status = .running → step s ≠ .fault .noStepHalted ∧ step s ≠ .fault .noStepFaulted)

/-- R112, R184, R255: a step of a Running machine answers a next state, unless it is an IN whose host has not answered. -/
def Obligations.RunningStepCompletesOrAwaitsInput : Prop :=
  ∀ s : State, s.status = .running →
    (∃ t, step s = .next t) ∨
    (s.input = [] ∧ s.Room 2 ∧ (∃ d, instrAt s = some (.input (.register d))) ∧ step s = .fault .awaitingInput)

/-- R102, R204 (D3, log 17; D17, log 13): an opcode fetch past the last cell faults with `InstructionPointerOutOfRange` and `info` the `pc`. -/
def Obligations.OpcodeFetchPastMemoryFaults : Prop :=
  ∀ s : State, s.status = .running → 32767 < s.pc.toNat →
    step s = .next (s.trapped { cause := .instructionPointerOutOfRange, info := s.pc, words := 0 })

/-! ### The instructions

Each statement has the instruction's words, the operand faults in their order (`TrapsOnOperands`: the first one is taken,
nothing else happens), and the whole next state where every operand resolves. Three decisions of the spec stand in most of
them and are named by number in each docstring: D1 (the opcode number, log 8), D7 (which operands are value operands, log 9)
and D17 (what a fault records: the cursor and the opcode's address, log 13). Faults and their order are also D29's (log 11). -/

/-- R195 (D1). -/
def Obligations.HaltMeaning : Prop :=
  encode .halt = [0] ∧
  ∀ s : State, s.pc.toNat ≤ 32767 →
    ∃ t, exec .halt s = .next t ∧ t = { s with halted := true, pc := s.pc + 1 } ∧
      (s.fault.cause = none → t.status = .halted ∧ t.exitStatus = some 0)

/-- R196 (D1). -/
def Obligations.NopMeaning : Prop :=
  encode .nop = [21] ∧
  ∀ s : State, s.pc.toNat ≤ 32767 → exec .nop s = .next { s with pc := s.pc + 1 }

/-- R120 (D1, D7, D17, D29). -/
def Obligations.SetMeaning : Prop :=
  (∀ a b, encode (.set a b) = [1, a.toWord, b.toWord] ∧ TrapsOnOperands (.set a b)) ∧
  ∀ (s : State) (d : RegIndex) (b : Operand) (v : Word), s.Room 3 → valueOf? s b = some v →
    exec (.set (.register d) b) s = .next { s with regs := s.regs.set d v, pc := s.pc + 3 }

/-- R121, R108 (the place of the check: D4), R205 (D1, D7, D17, D29). -/
def Obligations.PushMeaning : Prop :=
  (∀ a, encode (.push a) = [2, a.toWord] ∧ TrapsOnOperands (.push a)) ∧
  ∀ (s : State) (a : Operand) (v : Word), s.Room 2 → valueOf? s a = some v →
    (s.stack.length ≠ s.cfg.stackCapacity →
      exec (.push a) s = .next { s with stack := s.stack ++ [v], pc := s.pc + 2 }) ∧
    (s.stack.length = s.cfg.stackCapacity →
      exec (.push a) s = .next (s.trapped { cause := .stackOverflow, info := v.setWidth 16, words := 2 }))

/-- R122, R109, R206 (D1, D17, D29). -/
def Obligations.PopMeaning : Prop :=
  (∀ a, encode (.pop a) = [3, a.toWord] ∧ TrapsOnOperands (.pop a)) ∧
  ∀ (s : State) (d : RegIndex), s.Room 2 →
    (∀ st v, s.stack = st ++ [v] →
      exec (.pop (.register d)) s = .next { s with regs := s.regs.set d v, stack := st, pc := s.pc + 2 }) ∧
    (s.stack = [] →
      exec (.pop (.register d)) s = .next (s.trapped { cause := .stackUnderflow, info := 0, words := 2 }))

/-- R130, R132 (D1, D7, D17, D29). -/
def Obligations.EqMeaning : Prop :=
  (∀ a b c, encode (.eq a b c) = [4, a.toWord, b.toWord, c.toWord] ∧ TrapsOnOperands (.eq a b c)) ∧
  ∀ (s : State) (d : RegIndex) (b c : Operand) (vb vc : Word), s.Room 4 → valueOf? s b = some vb →
    valueOf? s c = some vc →
    exec (.eq (.register d) b c) s =
      .next { s with regs := s.regs.set d (if vb = vc then 1 else 0), pc := s.pc + 4 }

/-- R131, R132: the comparison is unsigned and its left side is the first value operand (D1, D7, D17, D29). -/
def Obligations.GtMeaning : Prop :=
  (∀ a b c, encode (.gt a b c) = [5, a.toWord, b.toWord, c.toWord] ∧ TrapsOnOperands (.gt a b c)) ∧
  ∀ (s : State) (d : RegIndex) (b c : Operand) (vb vc : Word), s.Room 4 → valueOf? s b = some vb →
    valueOf? s c = some vc →
    exec (.gt (.register d) b c) s =
      .next { s with regs := s.regs.set d (if vc.toNat < vb.toNat then 1 else 0), pc := s.pc + 4 }

/-- R135, R139 (D1, D7, D17, D29): that the target may be a register's content is D7's. -/
def Obligations.JmpMeaning : Prop :=
  (∀ a, encode (.jmp a) = [6, a.toWord] ∧ TrapsOnOperands (.jmp a)) ∧
  ∀ (s : State) (a : Operand) (target : Word), s.Room 2 → valueOf? s a = some target →
    exec (.jmp a) s = .next { s with pc := BitVec.ofNat 16 target.toNat }

/-- R136, R138 (D8: the target is resolved, and may fault, when the jump is not taken) (D1, D7, D17, D29). -/
def Obligations.JtMeaning : Prop :=
  (∀ a b, encode (.jt a b) = [7, a.toWord, b.toWord] ∧ TrapsOnOperands (.jt a b)) ∧
  ∀ (s : State) (a b : Operand) (cond target : Word), s.Room 3 → valueOf? s a = some cond →
    valueOf? s b = some target →
    exec (.jt a b) s = .next { s with pc := if cond.toNat ≠ 0 then BitVec.ofNat 16 target.toNat else s.pc + 3 }

/-- R137, R138 (D8, as for JT) (D1, D7, D17, D29). -/
def Obligations.JfMeaning : Prop :=
  (∀ a b, encode (.jf a b) = [8, a.toWord, b.toWord] ∧ TrapsOnOperands (.jf a b)) ∧
  ∀ (s : State) (a b : Operand) (cond target : Word), s.Room 3 → valueOf? s a = some cond →
    valueOf? s b = some target →
    exec (.jf a b) s = .next { s with pc := if cond.toNat = 0 then BitVec.ofNat 16 target.toNat else s.pc + 3 }

/-- R145 (D1, D7, D17, D29). -/
def Obligations.AddMeaning : Prop :=
  (∀ a b c, encode (.add a b c) = [9, a.toWord, b.toWord, c.toWord] ∧ TrapsOnOperands (.add a b c)) ∧
  ∀ (s : State) (d : RegIndex) (b c : Operand) (vb vc : Word), s.Room 4 → valueOf? s b = some vb →
    valueOf? s c = some vc →
    ∃ r : Word, r.toNat = (vb.toNat + vc.toNat) % 32768 ∧
      exec (.add (.register d) b c) s = .next { s with regs := s.regs.set d r, pc := s.pc + 4 }

/-- R146 (D1, D7, D17, D29). -/
def Obligations.MultMeaning : Prop :=
  (∀ a b c, encode (.mult a b c) = [10, a.toWord, b.toWord, c.toWord] ∧ TrapsOnOperands (.mult a b c)) ∧
  ∀ (s : State) (d : RegIndex) (b c : Operand) (vb vc : Word), s.Room 4 → valueOf? s b = some vb →
    valueOf? s c = some vc →
    ∃ r : Word, r.toNat = (vb.toNat * vc.toNat) % 32768 ∧
      exec (.mult (.register d) b c) s = .next { s with regs := s.regs.set d r, pc := s.pc + 4 }

/-- R147 (a zero divisor faults: D6), R153, R208 (D1, D7, D17, D29). -/
def Obligations.ModMeaning : Prop :=
  (∀ a b c, encode (.mod a b c) = [11, a.toWord, b.toWord, c.toWord] ∧ TrapsOnOperands (.mod a b c)) ∧
  ∀ (s : State) (d : RegIndex) (b c : Operand) (vb vc : Word), s.Room 4 → valueOf? s b = some vb →
    valueOf? s c = some vc →
    (vc.toNat ≠ 0 → ∃ (r : Word) (q : Nat), r.toNat < vc.toNat ∧ vb.toNat = q * vc.toNat + r.toNat ∧
      exec (.mod (.register d) b c) s = .next { s with regs := s.regs.set d r, pc := s.pc + 4 }) ∧
    (vc.toNat = 0 →
      exec (.mod (.register d) b c) s =
        .next (s.trapped { cause := .divisionByZero, info := c.toWord, words := 4 }))

/-- R148: bit by bit (D1, D7, D17, D29). That the operands are `reg, a, b` is R82's reading (N6, log 9). -/
def Obligations.AndMeaning : Prop :=
  (∀ a b c, encode (.and a b c) = [12, a.toWord, b.toWord, c.toWord] ∧ TrapsOnOperands (.and a b c)) ∧
  ∀ (s : State) (d : RegIndex) (b c : Operand) (vb vc : Word), s.Room 4 → valueOf? s b = some vb →
    valueOf? s c = some vc →
    ∃ r : Word, (∀ k, k < 15 → (r.getLsbD k = true ↔ vb.getLsbD k = true ∧ vc.getLsbD k = true)) ∧
      exec (.and (.register d) b c) s = .next { s with regs := s.regs.set d r, pc := s.pc + 4 }

/-- R149: bit by bit (D1, D7, D17, D29). That the operands are `reg, a, b` is R82's reading (N6, log 9). -/
def Obligations.OrMeaning : Prop :=
  (∀ a b c, encode (.or a b c) = [13, a.toWord, b.toWord, c.toWord] ∧ TrapsOnOperands (.or a b c)) ∧
  ∀ (s : State) (d : RegIndex) (b c : Operand) (vb vc : Word), s.Room 4 → valueOf? s b = some vb →
    valueOf? s c = some vc →
    ∃ r : Word, (∀ k, k < 15 → (r.getLsbD k = true ↔ vb.getLsbD k = true ∨ vc.getLsbD k = true)) ∧
      exec (.or (.register d) b c) s = .next { s with regs := s.regs.set d r, pc := s.pc + 4 }

/-- R150: bit by bit, and as R150 has it, 32767 less the value (D1, D7, D17, D29). -/
def Obligations.NotMeaning : Prop :=
  (∀ a b, encode (.not a b) = [14, a.toWord, b.toWord] ∧ TrapsOnOperands (.not a b)) ∧
  ∀ (s : State) (d : RegIndex) (b : Operand) (v : Word), s.Room 3 → valueOf? s b = some v →
    ∃ r : Word, (∀ k, k < 15 → (r.getLsbD k = true ↔ v.getLsbD k = false)) ∧ r.toNat = 32767 - v.toNat ∧
      exec (.not (.register d) b) s = .next { s with regs := s.regs.set d r, pc := s.pc + 3 }

/-- R160, R163: the low 15 bits of the cell (D1, D7, D17, D29). That the address may be a register's content is D7's. -/
def Obligations.RmemMeaning : Prop :=
  (∀ a b, encode (.rmem a b) = [15, a.toWord, b.toWord] ∧ TrapsOnOperands (.rmem a b)) ∧
  ∀ (s : State) (d : RegIndex) (b : Operand) (e : Word), s.Room 3 → valueOf? s b = some e →
    ∃ r : Word, r.toNat = (s.memRead e.toNat).toNat % 32768 ∧
      exec (.rmem (.register d) b) s = .next { s with regs := s.regs.set d r, pc := s.pc + 3 }

/-- R161, R163: the cell at the address reads as the value, every other cell as before, and nothing else changes
(D1, D7, D17, D29). That the address is a value operand is D7's. -/
def Obligations.WmemMeaning : Prop :=
  (∀ a b, encode (.wmem a b) = [16, a.toWord, b.toWord] ∧ TrapsOnOperands (.wmem a b)) ∧
  ∀ (s : State) (a b : Operand) (e v : Word), s.Room 3 → valueOf? s a = some e → valueOf? s b = some v →
    ∃ t, exec (.wmem a b) s = .next t ∧ t = { s with mem := t.mem, pc := s.pc + 3 } ∧
      (t.memRead e.toNat).toNat = v.toNat ∧ ∀ x, x ≠ e.toNat → t.memRead x = s.memRead x

/-- R170, R173 (D5: a return address of 32768 faults before the push; D4: the stack check) (D1, D7, D17, D29). -/
def Obligations.CallMeaning : Prop :=
  (∀ a, encode (.call a) = [17, a.toWord] ∧ TrapsOnOperands (.call a)) ∧
  ∀ (s : State) (a : Operand) (target : Word), s.Room 2 → valueOf? s a = some target →
    (s.pc.toNat + 2 = 32768 →
      exec (.call a) s = .next (s.trapped { cause := .instructionPointerOutOfRange, info := 32768, words := 2 })) ∧
    (s.pc.toNat + 2 < 32768 → s.stack.length = s.cfg.stackCapacity →
      exec (.call a) s = .next (s.trapped { cause := .stackOverflow, info := s.pc + 2, words := 2 })) ∧
    (s.pc.toNat + 2 < 32768 → s.stack.length ≠ s.cfg.stackCapacity →
      exec (.call a) s =
        .next { s with stack := s.stack ++ [BitVec.ofNat 15 (s.pc.toNat + 2)], pc := BitVec.ofNat 16 target.toNat })

/-- R171, R172 (D1). -/
def Obligations.RetMeaning : Prop :=
  encode .ret = [18] ∧
  ∀ s : State, s.pc.toNat ≤ 32767 →
    (s.stack = [] → ∃ t, exec .ret s = .next t ∧ t = { s with halted := true, pc := s.pc + 1 } ∧
      (s.fault.cause = none → t.status = .halted ∧ t.exitStatus = some 0)) ∧
    (∀ st target, s.stack = st ++ [target] →
      exec .ret s = .next { s with stack := st, pc := BitVec.ofNat 16 target.toNat })

/-- R180, R182 (D9: the low 8 bits) (D1, D7, D17, D29). -/
def Obligations.OutMeaning : Prop :=
  (∀ a, encode (.out a) = [19, a.toWord] ∧ TrapsOnOperands (.out a)) ∧
  ∀ (s : State) (a : Operand) (v : Word), s.Room 2 → valueOf? s a = some v →
    ∃ c : Byte, c.toNat = v.toNat % 256 ∧
      exec (.out a) s = .next { s with output := s.output ++ [c], pc := s.pc + 2 }

/-- R184, R185, R186, R187, R189 (D11: the newline is 10; D12: the operand first, the register kept at end
of input; D13: the moment of the checkpoint) (D1, D17, D29). -/
def Obligations.InMeaning : Prop :=
  (∀ a, encode (.input a) = [20, a.toWord] ∧ TrapsOnOperands (.input a)) ∧
  ∀ (s : State) (d : RegIndex) (rest : List InputAnswer), s.Room 2 →
    (s.input = [] → exec (.input (.register d)) s = .fault .awaitingInput) ∧
    (s.input = .eof :: rest →
      exec (.input (.register d)) s = .next { s with halted := true, pc := s.pc + 2, input := rest }) ∧
    (∀ code, s.input = .char code :: rest → ∃ (r : Word) (t : State), r.toNat = code % 32768 ∧
      t = { s with regs := s.regs.set d r, pc := s.pc + 2, input := rest } ∧
      (code ≠ 10 → exec (.input (.register d)) s = .next t) ∧
      (code = 10 →
        exec (.input (.register d)) s = .next { t with checkpoints := s.checkpoints ++ [t.snapshot] }))

/-! ### What no instruction does: the frames -/

/-- R22: a register that is not the instruction's destination is unchanged, for every instruction. -/
def Obligations.RegistersChangeOnlyAtDestination : Prop :=
  ∀ (i : Instr) (s t : State) (r : RegIndex), exec i s = .next t → destination i ≠ some r → t.reg r = s.reg r

/-- R51, R53: a cell that is not the one WMEM stores to is unchanged, for every instruction. -/
def Obligations.MemoryChangesOnlyAtStoreAddress : Prop :=
  ∀ (i : Instr) (s t : State) (x : Nat), exec i s = .next t → storeAddress s i ≠ some x → t.memRead x = s.memRead x

/-- R54: no step makes a cell hold 32768 or more that did not hold that value before. -/
def Obligations.StoredValuesAreWords : Prop :=
  ∀ (s t : State) (x : Nat), step s = .next t → 32768 ≤ (t.memRead x).toNat → t.memRead x = s.memRead x

/-- R28, R29: PUSH and CALL may add one entry on top, POP and RET may remove the top entry, and no other instruction
touches the stack. -/
def Obligations.StackChangesOnlyByPushAndPop : Prop :=
  ∀ (i : Instr) (s t : State), exec i s = .next t →
    t.stack = s.stack ∨
    (((∃ a, i = .push a) ∨ ∃ a, i = .call a) ∧ ∃ v, t.stack = s.stack ++ [v]) ∨
    (((∃ a, i = .pop a) ∨ i = .ret) ∧ ∃ v, s.stack = t.stack ++ [v])

/-- R32, R218: the halted flag is set by HALT, by RET on an empty stack and by IN at end of input, is changed by nothing
else, and is cleared by no instruction. -/
def Obligations.HaltedSetOnlyByNormalEnds : Prop :=
  ∀ (i : Instr) (s t : State), exec i s = .next t →
    t.halted = s.halted ∨
    (t.halted = true ∧ (i = .halt ∨ (i = .ret ∧ s.stack = []) ∨ ∃ a, i = .input a ∧ s.input.head? = some .eof))

/-- R210, R211 (D17, log 13): a step that changes the fault record changes `pc` beside it and nothing else; the record holds the cursor
and the address of the instruction's opcode word. -/
def Obligations.FaultsArePrecise : Prop :=
  ∀ s t : State, step s = .next t → t.fault ≠ s.fault →
    t = { s with pc := t.pc, fault := t.fault } ∧ t.fault.cause ≠ none ∧ t.fault.faultPc = t.pc ∧
      t.fault.instrAddr = s.pc

/-- R181, R184, R188, R190: the output grows by OUT alone, an answer is taken by IN alone, a checkpoint is requested by an
IN that takes a newline alone and carries the state the instruction leaves, and no instruction changes a parameter. That a
newline is the code 10 is D11's (R189), and the moment of the checkpoint is D13's (log 10). -/
def Obligations.ChannelsChangeOnlyByInAndOut : Prop :=
  ∀ (i : Instr) (s t : State), exec i s = .next t →
    t.cfg = s.cfg ∧
    (t.output = s.output ∨ ((∃ a, i = .out a) ∧ ∃ c, t.output = s.output ++ [c])) ∧
    (t.input = s.input ∨ ((∃ a, i = .input a) ∧ ∃ ans, s.input = ans :: t.input)) ∧
    (t.checkpoints = s.checkpoints ∨
      ((∃ a, i = .input a) ∧ (∃ rest, s.input = .char 10 :: rest) ∧ t.checkpoints = s.checkpoints ++ [t.snapshot]))

/-- R25: an instruction that does not fault leaves `pc` at its own address plus its length, unless it is one of the five
control transfers, which may set it to a Word. -/
def Obligations.PcAdvancesOrIsATarget : Prop :=
  ∀ (i : Instr) (s t : State), s.fault.cause = none → exec i s = .next t → t.fault.cause = none →
    t.pc = s.pc + BitVec.ofNat 16 i.length ∨
    (((∃ a, i = .jmp a) ∨ (∃ a b, i = .jt a b) ∨ (∃ a b, i = .jf a b) ∨ (∃ a, i = .call a) ∨ i = .ret) ∧
      ∃ target : Word, t.pc = BitVec.ofNat 16 target.toNat)

/-! ### Invariants -/

/-- R27, R30, R34, R247: the reset state meets the invariant, whatever the parameters. -/
def Obligations.ResetMeetsInvariant : Prop :=
  State.reset.Inv ∧ ∀ cfg : Config, (State.resetWith cfg).Inv

/-- R241, R247: every state the host may start the engine in meets the invariant. -/
def Obligations.StartMeetsInvariant : Prop :=
  ∀ (cfg : Config) (image : Option (List Byte)) (saved : Option Snapshot) (input : List (ChannelAnswer cfg)) (s : State),
    start cfg image saved input = .ok s → s.Inv

/-- R27, R30, R34, R201 to R209, R248: every step keeps the invariant: canonical memory, `pc` at most 32768, the stack
within its capacity, a within its capacity, a fault record whose `info` fits its cause, checkpoints a host may restore, and answers the `in` channel
can carry. -/
def Obligations.StepKeepsInvariant : Prop :=
  ∀ s t : State, s.Inv → step s = .next t → t.Inv

/-- R39, R184 (`IN_WIDTH`: D10): the host may offer an answer exactly when the `in` channel can carry it, and offering it
keeps the invariant and adds it behind the answers that wait. -/
def Obligations.OfferedAnswersKeepInvariant : Prop :=
  ∀ (a : InputAnswer) (s : State),
    ((∃ t, offerInput a s = some t) ↔ (a = .eof ∨ ∃ c, a = .char c ∧ c < 2 ^ s.cfg.inWidth)) ∧
    (∀ t, offerInput a s = some t → t = { s with input := s.input ++ [a] } ∧ (s.Inv → t.Inv))

/-- R203, R209, C3: no step raises `InvalidJumpTarget` or `AddressOutOfRange`. -/
def Obligations.DeadChecksNeverFire : Prop :=
  ∀ s t : State, step s = .next t →
    t.fault.cause ≠ some .invalidJumpTarget ∧ t.fault.cause ≠ some .addressOutOfRange

/-! ### Whole-machine rules -/

/-- R47, R112: a step reads the machine state, the parameters and at most one answer, and what it adds to the channels does
not depend on what they hold: the step of any state is the step of its machine state alone, its events recorded. -/
def Obligations.StepReadsMachineStateAndOneAnswer : Prop :=
  ∀ s : State, step s = Result.mapNext (s.toMachineState.step s.cfg s.input.head?) s.record

/-- R188, R246, R248 (D13): a machine restored from a checkpoint the engine sent is the machine that sent it, as it stood
after the IN. -/
def Obligations.CheckpointRestoresTheMachine : Prop :=
  ∀ s t : State, s.Inv → step s = .next t → t.checkpoints ≠ s.checkpoints →
    ∃ c, t.checkpoints = s.checkpoints ++ [c] ∧ c.halted = false ∧
      ∀ u : State, u.cfg = s.cfg →
        restore c u = .ok { u with toMachineState := t.toMachineState }

/-- R188, R190 (D13): the checkpoints already sent do not change what a step does to the rest of the state, nor whether it has
an outcome. -/
def Obligations.CheckpointsDoNotAffectTheRun : Prop :=
  ∀ (s : State) (cs : List Snapshot),
    (∀ t, step s = .next t → ∃ cs', step { s with checkpoints := cs } = .next { t with checkpoints := cs' }) ∧
    (∀ r, step s = .fault r → step { s with checkpoints := cs } = .fault r)

/-- R174: after a CALL that does not fault, a RET with the stack as the CALL left it resumes at the instruction after the
CALL, with the stack as it was before the CALL. -/
def Obligations.ReturnResumesAfterCall : Prop :=
  ∀ (s u v : State) (a : Operand), s.fault.cause = none → exec (.call a) s = .next u → u.fault.cause = none →
    v.stack = u.stack → v.pc.toNat ≤ 32767 →
    exec .ret v = .next { v with stack := s.stack, pc := s.pc + 2 }

/-- R123: a POP after a PUSH gives the value pushed and the stack as it was before the PUSH. -/
def Obligations.PopUndoesPush : Prop :=
  ∀ (s u v : State) (a : Operand) (x : Word) (d : RegIndex), s.fault.cause = none → valueOf? s a = some x →
    exec (.push a) s = .next u → u.fault.cause = none → v.stack = u.stack → v.Room 2 →
    exec (.pop (.register d)) v = .next { v with regs := v.regs.set d x, stack := s.stack, pc := v.pc + 2 }

/-- R70, R251: what a WMEM stores is what a later RMEM of that cell reads and a later fetch of that cell returns, while
memory stays as the WMEM left it. -/
def Obligations.StoreIsSeenByLoadAndFetch : Prop :=
  ∀ (s t u : State) (a b : Operand) (e v : Word), s.fault.cause = none → valueOf? s a = some e →
    valueOf? s b = some v → exec (.wmem a b) s = .next t → t.fault.cause = none → u.mem = t.mem →
    (∀ (d : RegIndex) (c : Operand), u.Room 3 → valueOf? u c = some e →
      exec (.rmem (.register d) c) u = .next { u with regs := u.regs.set d v, pc := u.pc + 3 }) ∧
    (∀ ia, u.pc.toNat = e.toNat → fetch ia u = .ok (BitVec.ofNat 16 v.toNat) (u.setPc (u.pc + 1)))

/-! ### Loading, reset, status -/

/-- R56: cell `i` of a loaded image is the little-endian word `i` of the bytes, and every cell beyond the image is 0. -/
def Obligations.LoadedImageIsLittleEndian : Prop :=
  ∀ (bytes : List Byte) (m : Memory), loadImage (some bytes) = .ok m →
    (∀ i, i < bytes.length / 2 →
      (m.read i).toNat = (bytes.getD (2 * i) 0).toNat + 256 * (bytes.getD (2 * i + 1) 0).toNat) ∧
    (∀ i, bytes.length / 2 ≤ i → m.read i = 0)

/-- R57, R59 (D19), R60 (D20), R217: which images are refused and why, that every other one is loaded, and that a refusal
shows the exit status 1 (D21). -/
def Obligations.LoadRefusesExactlyBadImages : Prop :=
  loadImage none = .error .unreadable ∧
  (∀ bytes : List Byte, bytes.length % 2 = 1 → loadImage (some bytes) = .error .oddLength) ∧
  (∀ bytes : List Byte, bytes.length % 2 = 0 → 65536 < bytes.length → loadImage (some bytes) = .error .tooLong) ∧
  (∀ bytes : List Byte, bytes.length % 2 = 0 → bytes.length ≤ 65536 → ∃ m, loadImage (some bytes) = .ok m) ∧
  (∀ e : LoadError, startExitStatus (.error e) = some 1)

/-- R241, R244: a machine started from an image without a checkpoint has the reset registers, stack, `pc` and status, a
debug read of each cell gives the word of the image, and the first fetch reads cell 0. -/
def Obligations.StartedMachineHoldsTheImage : Prop :=
  ∀ (cfg : Config) (image : List Byte) (m : Memory) (input : List (ChannelAnswer cfg)), loadImage (some image) = .ok m →
    ∃ s, start cfg (some image) none input = .ok s ∧
      (∀ r, s.reg r = 0) ∧ s.stack = [] ∧ s.pc = 0 ∧ s.status = .running ∧
      (∀ x, x ≤ 32767 → debugRead s x = some (m.read x)) ∧
      fetch s.pc s = .ok (m.read 0) (s.setPc 1)

/-- R46, R240, with D15 (log 7) for the registers, the stack and the record's other fields: what reset leaves, in every state it
is applied to, and that it leads back to Running. -/
def Obligations.ResetValues : Prop :=
  ∀ s : State,
    (∀ r, (hostReset s).reg r = 0) ∧ (∀ x, (hostReset s).memRead x = 0) ∧ (hostReset s).stack = [] ∧
    (hostReset s).sp = 0 ∧ (hostReset s).pc = 0 ∧ (hostReset s).halted = false ∧
    (hostReset s).fault = { cause := none, info := 0, faultPc := 0, instrAddr := 0 } ∧
    (hostReset s).status = .running ∧ State.reset = State.resetWith State.reset.cfg ∧
    State.reset.cfg.stackCapacity.val = 65536 ∧ State.reset.cfg.inWidth = 8

/-- R34, R216 (D21: the status of a fault is 1): the status is Faulted when there is a fault, otherwise Halted when the
flag is set, otherwise Running, and the exit status follows it. -/
def Obligations.StatusAndExitStatus : Prop :=
  ∀ s : State,
    (s.fault.cause ≠ none → s.status = .faulted ∧ s.exitStatus = some 1) ∧
    (s.fault.cause = none → s.halted = true → s.status = .halted ∧ s.exitStatus = some 0) ∧
    (s.fault.cause = none → s.halted = false → s.status = .running ∧ s.exitStatus = none)

/-- R200 (the numbers are the spec's own choice: D16, log 13): the codes of the nine causes; 0 is no fault. -/
def Obligations.FaultCodes : Prop :=
  ({ cause := none, info := 0, faultPc := 0, instrAddr := 0 } : FaultRecord).causeCode = 0 ∧
  [FaultCause.invalidOperand, .invalidRegister, .invalidJumpTarget, .instructionPointerOutOfRange, .stackOverflow,
    .stackUnderflow, .unknownOpcode, .divisionByZero, .addressOutOfRange].map FaultCause.code =
    [1, 2, 3, 4, 5, 6, 7, 8, 9]
end

