-- ==== Sys2Proof/Laws/State.lean ====
section
/-! SUPPORT. One lemma per field per update of the state, true by definition, so that no later proof unfolds an update. -/

namespace Sys2Proof.Machine

/-! ### `setReg` -/

@[simp] theorem State.setReg_regs (s : State) (r : RegIndex) (v : Word) : (s.setReg r v).regs = s.regs.set r v := rfl
@[simp] theorem State.setReg_mem (s : State) (r : RegIndex) (v : Word) : (s.setReg r v).mem = s.mem := rfl
@[simp] theorem State.setReg_stack (s : State) (r : RegIndex) (v : Word) : (s.setReg r v).stack = s.stack := rfl
@[simp] theorem State.setReg_pc (s : State) (r : RegIndex) (v : Word) : (s.setReg r v).pc = s.pc := rfl
@[simp] theorem State.setReg_halted (s : State) (r : RegIndex) (v : Word) : (s.setReg r v).halted = s.halted := rfl
@[simp] theorem State.setReg_fault (s : State) (r : RegIndex) (v : Word) : (s.setReg r v).fault = s.fault := rfl
@[simp] theorem State.setReg_cfg (s : State) (r : RegIndex) (v : Word) : (s.setReg r v).cfg = s.cfg := rfl
@[simp] theorem State.setReg_input (s : State) (r : RegIndex) (v : Word) : (s.setReg r v).input = s.input := rfl
@[simp] theorem State.setReg_output (s : State) (r : RegIndex) (v : Word) : (s.setReg r v).output = s.output := rfl
@[simp] theorem State.setReg_checkpoints (s : State) (r : RegIndex) (v : Word) :
    (s.setReg r v).checkpoints = s.checkpoints := rfl

/-! ### `setPc` -/

@[simp] theorem State.setPc_regs (s : State) (p : StoredWord) : (s.setPc p).regs = s.regs := rfl
@[simp] theorem State.setPc_mem (s : State) (p : StoredWord) : (s.setPc p).mem = s.mem := rfl
@[simp] theorem State.setPc_stack (s : State) (p : StoredWord) : (s.setPc p).stack = s.stack := rfl
@[simp] theorem State.setPc_pc (s : State) (p : StoredWord) : (s.setPc p).pc = p := rfl
@[simp] theorem State.setPc_halted (s : State) (p : StoredWord) : (s.setPc p).halted = s.halted := rfl
@[simp] theorem State.setPc_fault (s : State) (p : StoredWord) : (s.setPc p).fault = s.fault := rfl
@[simp] theorem State.setPc_cfg (s : State) (p : StoredWord) : (s.setPc p).cfg = s.cfg := rfl
@[simp] theorem State.setPc_input (s : State) (p : StoredWord) : (s.setPc p).input = s.input := rfl
@[simp] theorem State.setPc_output (s : State) (p : StoredWord) : (s.setPc p).output = s.output := rfl
@[simp] theorem State.setPc_checkpoints (s : State) (p : StoredWord) : (s.setPc p).checkpoints = s.checkpoints := rfl

/-! ### `setStack` -/

@[simp] theorem State.setStack_regs (s : State) (st : List Word) : (s.setStack st).regs = s.regs := rfl
@[simp] theorem State.setStack_mem (s : State) (st : List Word) : (s.setStack st).mem = s.mem := rfl
@[simp] theorem State.setStack_stack (s : State) (st : List Word) : (s.setStack st).stack = st := rfl
@[simp] theorem State.setStack_pc (s : State) (st : List Word) : (s.setStack st).pc = s.pc := rfl
@[simp] theorem State.setStack_halted (s : State) (st : List Word) : (s.setStack st).halted = s.halted := rfl
@[simp] theorem State.setStack_fault (s : State) (st : List Word) : (s.setStack st).fault = s.fault := rfl
@[simp] theorem State.setStack_cfg (s : State) (st : List Word) : (s.setStack st).cfg = s.cfg := rfl
@[simp] theorem State.setStack_input (s : State) (st : List Word) : (s.setStack st).input = s.input := rfl
@[simp] theorem State.setStack_output (s : State) (st : List Word) : (s.setStack st).output = s.output := rfl
@[simp] theorem State.setStack_checkpoints (s : State) (st : List Word) :
    (s.setStack st).checkpoints = s.checkpoints := rfl

/-! ### `setMem` -/

@[simp] theorem State.setMem_regs (s : State) (m : Memory) : (s.setMem m).regs = s.regs := rfl
@[simp] theorem State.setMem_mem (s : State) (m : Memory) : (s.setMem m).mem = m := rfl
@[simp] theorem State.setMem_stack (s : State) (m : Memory) : (s.setMem m).stack = s.stack := rfl
@[simp] theorem State.setMem_pc (s : State) (m : Memory) : (s.setMem m).pc = s.pc := rfl
@[simp] theorem State.setMem_halted (s : State) (m : Memory) : (s.setMem m).halted = s.halted := rfl
@[simp] theorem State.setMem_fault (s : State) (m : Memory) : (s.setMem m).fault = s.fault := rfl
@[simp] theorem State.setMem_cfg (s : State) (m : Memory) : (s.setMem m).cfg = s.cfg := rfl
@[simp] theorem State.setMem_input (s : State) (m : Memory) : (s.setMem m).input = s.input := rfl
@[simp] theorem State.setMem_output (s : State) (m : Memory) : (s.setMem m).output = s.output := rfl
@[simp] theorem State.setMem_checkpoints (s : State) (m : Memory) : (s.setMem m).checkpoints = s.checkpoints := rfl

/-! ### `setHalted` -/

@[simp] theorem State.setHalted_regs (s : State) : (s.setHalted).regs = s.regs := rfl
@[simp] theorem State.setHalted_mem (s : State) : (s.setHalted).mem = s.mem := rfl
@[simp] theorem State.setHalted_stack (s : State) : (s.setHalted).stack = s.stack := rfl
@[simp] theorem State.setHalted_pc (s : State) : (s.setHalted).pc = s.pc := rfl
@[simp] theorem State.setHalted_halted (s : State) : (s.setHalted).halted = true := rfl
@[simp] theorem State.setHalted_fault (s : State) : (s.setHalted).fault = s.fault := rfl
@[simp] theorem State.setHalted_cfg (s : State) : (s.setHalted).cfg = s.cfg := rfl
@[simp] theorem State.setHalted_input (s : State) : (s.setHalted).input = s.input := rfl
@[simp] theorem State.setHalted_output (s : State) : (s.setHalted).output = s.output := rfl
@[simp] theorem State.setHalted_checkpoints (s : State) : (s.setHalted).checkpoints = s.checkpoints := rfl

/-! ### `setInput` -/

@[simp] theorem State.setInput_regs (s : State) (i : List InputAnswer) : (s.setInput i).regs = s.regs := rfl
@[simp] theorem State.setInput_mem (s : State) (i : List InputAnswer) : (s.setInput i).mem = s.mem := rfl
@[simp] theorem State.setInput_stack (s : State) (i : List InputAnswer) : (s.setInput i).stack = s.stack := rfl
@[simp] theorem State.setInput_pc (s : State) (i : List InputAnswer) : (s.setInput i).pc = s.pc := rfl
@[simp] theorem State.setInput_halted (s : State) (i : List InputAnswer) : (s.setInput i).halted = s.halted := rfl
@[simp] theorem State.setInput_fault (s : State) (i : List InputAnswer) : (s.setInput i).fault = s.fault := rfl
@[simp] theorem State.setInput_cfg (s : State) (i : List InputAnswer) : (s.setInput i).cfg = s.cfg := rfl
@[simp] theorem State.setInput_input (s : State) (i : List InputAnswer) : (s.setInput i).input = i := rfl
@[simp] theorem State.setInput_output (s : State) (i : List InputAnswer) : (s.setInput i).output = s.output := rfl
@[simp] theorem State.setInput_checkpoints (s : State) (i : List InputAnswer) :
    (s.setInput i).checkpoints = s.checkpoints := rfl

/-! ### `memWrite` -/

@[simp] theorem State.memWrite_regs (s : State) (a : Nat) (v : StoredWord) : (s.memWrite a v).regs = s.regs := rfl
@[simp] theorem State.memWrite_mem (s : State) (a : Nat) (v : StoredWord) :
    (s.memWrite a v).mem = s.mem.write a v := rfl
@[simp] theorem State.memWrite_stack (s : State) (a : Nat) (v : StoredWord) : (s.memWrite a v).stack = s.stack := rfl
@[simp] theorem State.memWrite_pc (s : State) (a : Nat) (v : StoredWord) : (s.memWrite a v).pc = s.pc := rfl
@[simp] theorem State.memWrite_halted (s : State) (a : Nat) (v : StoredWord) :
    (s.memWrite a v).halted = s.halted := rfl
@[simp] theorem State.memWrite_fault (s : State) (a : Nat) (v : StoredWord) : (s.memWrite a v).fault = s.fault := rfl
@[simp] theorem State.memWrite_cfg (s : State) (a : Nat) (v : StoredWord) : (s.memWrite a v).cfg = s.cfg := rfl
@[simp] theorem State.memWrite_input (s : State) (a : Nat) (v : StoredWord) : (s.memWrite a v).input = s.input := rfl
@[simp] theorem State.memWrite_output (s : State) (a : Nat) (v : StoredWord) :
    (s.memWrite a v).output = s.output := rfl
@[simp] theorem State.memWrite_checkpoints (s : State) (a : Nat) (v : StoredWord) :
    (s.memWrite a v).checkpoints = s.checkpoints := rfl

/-! ### `raise` -/

@[simp] theorem State.raise_regs (s : State) (c : FaultCause) (info ia : StoredWord) :
    (s.raise c info ia).regs = s.regs := rfl
@[simp] theorem State.raise_mem (s : State) (c : FaultCause) (info ia : StoredWord) :
    (s.raise c info ia).mem = s.mem := rfl
@[simp] theorem State.raise_stack (s : State) (c : FaultCause) (info ia : StoredWord) :
    (s.raise c info ia).stack = s.stack := rfl
@[simp] theorem State.raise_pc (s : State) (c : FaultCause) (info ia : StoredWord) :
    (s.raise c info ia).pc = s.pc := rfl
@[simp] theorem State.raise_halted (s : State) (c : FaultCause) (info ia : StoredWord) :
    (s.raise c info ia).halted = s.halted := rfl
@[simp] theorem State.raise_fault (s : State) (c : FaultCause) (info ia : StoredWord) :
    (s.raise c info ia).fault = { cause := some c, info := info, faultPc := s.pc, instrAddr := ia } := rfl
@[simp] theorem State.raise_cfg (s : State) (c : FaultCause) (info ia : StoredWord) :
    (s.raise c info ia).cfg = s.cfg := rfl
@[simp] theorem State.raise_input (s : State) (c : FaultCause) (info ia : StoredWord) :
    (s.raise c info ia).input = s.input := rfl
@[simp] theorem State.raise_output (s : State) (c : FaultCause) (info ia : StoredWord) :
    (s.raise c info ia).output = s.output := rfl
@[simp] theorem State.raise_checkpoints (s : State) (c : FaultCause) (info ia : StoredWord) :
    (s.raise c info ia).checkpoints = s.checkpoints := rfl

/-! ### `emit` -/

@[simp] theorem State.emit_regs (s : State) (c : Byte) : (s.emit c).regs = s.regs := rfl
@[simp] theorem State.emit_mem (s : State) (c : Byte) : (s.emit c).mem = s.mem := rfl
@[simp] theorem State.emit_stack (s : State) (c : Byte) : (s.emit c).stack = s.stack := rfl
@[simp] theorem State.emit_pc (s : State) (c : Byte) : (s.emit c).pc = s.pc := rfl
@[simp] theorem State.emit_halted (s : State) (c : Byte) : (s.emit c).halted = s.halted := rfl
@[simp] theorem State.emit_fault (s : State) (c : Byte) : (s.emit c).fault = s.fault := rfl
@[simp] theorem State.emit_cfg (s : State) (c : Byte) : (s.emit c).cfg = s.cfg := rfl
@[simp] theorem State.emit_input (s : State) (c : Byte) : (s.emit c).input = s.input := rfl
@[simp] theorem State.emit_output (s : State) (c : Byte) : (s.emit c).output = s.output ++ [c] := rfl
@[simp] theorem State.emit_checkpoints (s : State) (c : Byte) : (s.emit c).checkpoints = s.checkpoints := rfl

/-! ### `checkpoint` -/

@[simp] theorem State.checkpoint_regs (s : State) : (s.checkpoint).regs = s.regs := rfl
@[simp] theorem State.checkpoint_mem (s : State) : (s.checkpoint).mem = s.mem := rfl
@[simp] theorem State.checkpoint_stack (s : State) : (s.checkpoint).stack = s.stack := rfl
@[simp] theorem State.checkpoint_pc (s : State) : (s.checkpoint).pc = s.pc := rfl
@[simp] theorem State.checkpoint_halted (s : State) : (s.checkpoint).halted = s.halted := rfl
@[simp] theorem State.checkpoint_fault (s : State) : (s.checkpoint).fault = s.fault := rfl
@[simp] theorem State.checkpoint_cfg (s : State) : (s.checkpoint).cfg = s.cfg := rfl
@[simp] theorem State.checkpoint_input (s : State) : (s.checkpoint).input = s.input := rfl
@[simp] theorem State.checkpoint_output (s : State) : (s.checkpoint).output = s.output := rfl
@[simp] theorem State.checkpoint_checkpoints (s : State) :
    (s.checkpoint).checkpoints = s.checkpoints ++ [s.snapshot] := rfl

/-! ### `trapped` -/

@[simp] theorem State.trapped_regs (s : State) (tr : Trap) : (s.trapped tr).regs = s.regs := rfl
@[simp] theorem State.trapped_mem (s : State) (tr : Trap) : (s.trapped tr).mem = s.mem := rfl
@[simp] theorem State.trapped_stack (s : State) (tr : Trap) : (s.trapped tr).stack = s.stack := rfl
@[simp] theorem State.trapped_pc (s : State) (tr : Trap) : (s.trapped tr).pc = s.pc + BitVec.ofNat 16 tr.words := rfl
@[simp] theorem State.trapped_halted (s : State) (tr : Trap) : (s.trapped tr).halted = s.halted := rfl
@[simp] theorem State.trapped_fault (s : State) (tr : Trap) :
    (s.trapped tr).fault = { cause := some tr.cause, info := tr.info, faultPc := s.pc + BitVec.ofNat 16 tr.words, instrAddr := s.pc } := rfl
@[simp] theorem State.trapped_cfg (s : State) (tr : Trap) : (s.trapped tr).cfg = s.cfg := rfl
@[simp] theorem State.trapped_input (s : State) (tr : Trap) : (s.trapped tr).input = s.input := rfl
@[simp] theorem State.trapped_output (s : State) (tr : Trap) : (s.trapped tr).output = s.output := rfl
@[simp] theorem State.trapped_checkpoints (s : State) (tr : Trap) : (s.trapped tr).checkpoints = s.checkpoints := rfl

/-! ### Reading a register -/

@[simp] theorem State.setPc_reg (s : State) (p : StoredWord) (r : RegIndex) : (s.setPc p).reg r = s.reg r := rfl
@[simp] theorem State.setStack_reg (s : State) (st : List Word) (r : RegIndex) :
    (s.setStack st).reg r = s.reg r := rfl
@[simp] theorem State.setMem_reg (s : State) (m : Memory) (r : RegIndex) : (s.setMem m).reg r = s.reg r := rfl
@[simp] theorem State.setHalted_reg (s : State) (r : RegIndex) : (s.setHalted).reg r = s.reg r := rfl
@[simp] theorem State.setInput_reg (s : State) (i : List InputAnswer) (r : RegIndex) :
    (s.setInput i).reg r = s.reg r := rfl
@[simp] theorem State.memWrite_reg (s : State) (a : Nat) (v : StoredWord) (r : RegIndex) :
    (s.memWrite a v).reg r = s.reg r := rfl
@[simp] theorem State.raise_reg (s : State) (c : FaultCause) (info ia : StoredWord) (r : RegIndex) :
    (s.raise c info ia).reg r = s.reg r := rfl
@[simp] theorem State.emit_reg (s : State) (c : Byte) (r : RegIndex) : (s.emit c).reg r = s.reg r := rfl
@[simp] theorem State.checkpoint_reg (s : State) (r : RegIndex) : (s.checkpoint).reg r = s.reg r := rfl
@[simp] theorem State.trapped_reg (s : State) (tr : Trap) (r : RegIndex) : (s.trapped tr).reg r = s.reg r := rfl

/-- R22: a register write is seen at its register and nowhere else. -/
theorem State.setReg_reg (s : State) (d r : RegIndex) (v : Word) :
    (s.setReg d v).reg r = if r = d then v else s.reg r := by
  rcases d with ⟨d, hd⟩
  rcases r with ⟨r, hr⟩
  simp only [State.reg, State.setReg, Fin.getElem_fin, Vector.getElem_set, Fin.mk.injEq]
  by_cases h : d = r
  · simp [h]
  · have h' : ¬ r = d := fun e => h e.symm
    simp [h, h']

@[simp] theorem State.setReg_reg_same (s : State) (d : RegIndex) (v : Word) : (s.setReg d v).reg d = v := by
  rw [State.setReg_reg, if_pos rfl]

theorem State.setReg_reg_ne (s : State) (d r : RegIndex) (v : Word) (h : r ≠ d) :
    (s.setReg d v).reg r = s.reg r := by
  rw [State.setReg_reg, if_neg h]

@[simp] theorem State.setPc_setPc (s : State) (p q : StoredWord) : (s.setPc p).setPc q = s.setPc q := rfl

/-- The state a trap leaves, in the operations the meanings use. -/
theorem State.trapped_eq (s : State) (tr : Trap) :
    s.trapped tr = (s.setPc (s.pc + BitVec.ofNat 16 tr.words)).raise tr.cause tr.info s.pc := rfl

/-! ### `alone`, `record` -/

@[simp] theorem MachineState.alone_toMachineState (m : MachineState) (cfg : Config) (a : Option InputAnswer) :
    (m.alone cfg a).toMachineState = m := rfl
@[simp] theorem MachineState.alone_cfg (m : MachineState) (cfg : Config) (a : Option InputAnswer) :
    (m.alone cfg a).cfg = cfg := rfl
@[simp] theorem MachineState.alone_input (m : MachineState) (cfg : Config) (a : Option InputAnswer) :
    (m.alone cfg a).input = a.toList := rfl
@[simp] theorem MachineState.alone_output (m : MachineState) (cfg : Config) (a : Option InputAnswer) :
    (m.alone cfg a).output = [] := rfl
@[simp] theorem MachineState.alone_checkpoints (m : MachineState) (cfg : Config) (a : Option InputAnswer) :
    (m.alone cfg a).checkpoints = [] := rfl
@[simp] theorem State.record_toMachineState (s t : State) : (s.record t).toMachineState = t.toMachineState := rfl
@[simp] theorem State.record_cfg (s t : State) : (s.record t).cfg = t.cfg := rfl
@[simp] theorem State.record_input (s t : State) : (s.record t).input = t.input ++ s.input.tail := rfl
@[simp] theorem State.record_output (s t : State) : (s.record t).output = s.output ++ t.output := rfl
@[simp] theorem State.record_checkpoints (s t : State) : (s.record t).checkpoints = s.checkpoints ++ t.checkpoints := rfl
@[simp] theorem Result.mapNext_next (t : State) (f : State → State) : Result.mapNext (.next t) f = .next (f t) := rfl
@[simp] theorem Result.mapNext_fault (e : Fault) (f : State → State) : Result.mapNext (.fault e) f = .fault e := rfl

end Sys2Proof.Machine
end

