-- ==== Sys2Proof/Laws/Operands.lean ====
section
/-! SUPPORT. What each operand format can do, said once (`40_step_and_operands.md` R102 to R107): it takes the first operand
fault and is Faulted, or it answers the operands with `pc` past the instruction and nothing else changed. -/

namespace Sys2Proof.Machine

theorem fetch_ok (ia : StoredWord) (s : State) (h : s.pc.toNat ≤ 32767) :
    fetch ia s = .ok (s.memRead s.pc.toNat) (s.setPc (s.pc + 1)) := by
  rw [fetch, if_neg (by omega)]

theorem fetch_outOfRange (ia : StoredWord) (s : State) (h : 32767 < s.pc.toNat) :
    fetch ia s = .raised (s.raise .instructionPointerOutOfRange s.pc ia) := by
  rw [fetch, if_pos h]

@[simp] theorem Res.bind_ok {α β : Type} (a : α) (s : State) (k : α → State → Res β) :
    (Res.ok a s).bind k = k a s := rfl

@[simp] theorem Res.bind_raised {α β : Type} (s : State) (k : α → State → Res β) :
    (Res.raised s : Res α).bind k = .raised s := rfl

@[simp] theorem Res.andThen_ok {α : Type} (a : α) (s : State) (k : α → State → Result) :
    (Res.ok a s).andThen k = k a s := rfl

@[simp] theorem Res.andThen_raised {α : Type} (s : State) (k : α → State → Result) :
    (Res.raised s : Res α).andThen k = .next s := rfl

/-- The cursor `k` words into an instruction, as a number. -/
theorem cursor_toNat (s : State) (k : Nat) (h : s.pc.toNat + k ≤ 32768) :
    (s.pc + BitVec.ofNat 16 k).toNat = s.pc.toNat + k := by
  simp only [BitVec.toNat_add, BitVec.toNat_ofNat]
  omega

theorem cursor_succ (p : StoredWord) (k : Nat) : p + BitVec.ofNat 16 k + 1 = p + BitVec.ofNat 16 (k + 1) := by
  apply BitVec.eq_of_toNat_eq
  simp only [BitVec.toNat_add, BitVec.toNat_ofNat, show (1 : StoredWord).toNat = 1 from rfl]
  omega

/-- The value of an operand does not depend on `pc`. -/
@[simp] theorem valueOf?_setPc (s : State) (p : StoredWord) (o : Operand) : valueOf? (s.setPc p) o = valueOf? s o := by
  cases o <;> rfl

/-- A value position accepts exactly the operands that have a value (R85). -/
theorem accepts_val (s : State) (o : Operand) : OperandKind.val.accepts o = (valueOf? s o).isSome := by
  cases o <;> rfl

/-- A register position accepts exactly the operands that name a register (R86). -/
theorem accepts_reg (o : Operand) : OperandKind.reg.accepts o = (registerOf? o).isSome := by
  cases o <;> rfl

theorem registerOf?_eq_some {o : Operand} {r : RegIndex} : registerOf? o = some r ↔ o = .register r := by
  cases o <;> simp [registerOf?]

theorem fetch_at (s : State) (k : Nat) (h : s.pc.toNat + k ≤ 32767) :
    fetch s.pc (s.setPc (s.pc + BitVec.ofNat 16 k)) =
      .ok (s.memRead (s.pc.toNat + k)) (s.setPc (s.pc + BitVec.ofNat 16 (k + 1))) := by
  have hc := cursor_toNat s k (by omega)
  rw [fetch_ok _ _ (by simp only [State.setPc_pc, hc]; omega)]
  simp only [State.setPc_pc, hc, State.setPc_setPc, cursor_succ]
  rfl

theorem fetch_at_end (s : State) (k : Nat) (h : s.pc.toNat + k = 32768) :
    fetch s.pc (s.setPc (s.pc + BitVec.ofNat 16 k)) =
      .raised (s.trapped { cause := .instructionPointerOutOfRange, info := 32768, words := k }) := by
  have hc := cursor_toNat s k (by omega)
  have hw : s.pc + BitVec.ofNat 16 k = 32768 := BitVec.eq_of_toNat_eq (by rw [hc, h]; rfl)
  rw [fetch_outOfRange _ _ (by simp only [State.setPc_pc, hc]; omega), State.trapped_eq, State.setPc_pc, hw]

/-- One value operand `k` words into the instruction. -/
theorem fetchVal_at (s : State) (k : Nat) (o : Operand) (h : s.pc.toNat + k ≤ 32768) :
    (∃ tr, firstOperandFault s.pc.toNat k [(.val, o)] = some tr ∧
      fetchVal s.pc o (s.setPc (s.pc + BitVec.ofNat 16 k)) = .raised (s.trapped tr)) ∨
    (∃ v, valueOf? s o = some v ∧ OperandKind.val.accepts o = true ∧ s.pc.toNat + k ≤ 32767 ∧
      fetchVal s.pc o (s.setPc (s.pc + BitVec.ofNat 16 k)) = .ok v (s.setPc (s.pc + BitVec.ofNat 16 (k + 1)))) := by
  by_cases hk : s.pc.toNat + k ≤ 32767
  · simp only [fetchVal, fetch_at s k hk, Res.bind_ok, val, valueOf?_setPc, accepts_val s, firstOperandFault]
    cases hv : valueOf? s o with
    | none => exact .inl ⟨_, by rw [if_neg (by omega)]; rfl, rfl⟩
    | some v => exact .inr ⟨v, rfl, rfl, hk, rfl⟩
  · have hk' : s.pc.toNat + k = 32768 := by omega
    exact .inl ⟨_, by rw [firstOperandFault, if_pos (by omega)], by rw [fetchVal, fetch_at_end s k hk']; rfl⟩

/-- One register operand `k` words into the instruction. -/
theorem fetchReg_at (s : State) (k : Nat) (o : Operand) (h : s.pc.toNat + k ≤ 32768) :
    (∃ tr, firstOperandFault s.pc.toNat k [(.reg, o)] = some tr ∧
      fetchReg s.pc o (s.setPc (s.pc + BitVec.ofNat 16 k)) = .raised (s.trapped tr)) ∨
    (∃ r, registerOf? o = some r ∧ OperandKind.reg.accepts o = true ∧ s.pc.toNat + k ≤ 32767 ∧
      fetchReg s.pc o (s.setPc (s.pc + BitVec.ofNat 16 k)) = .ok r (s.setPc (s.pc + BitVec.ofNat 16 (k + 1)))) := by
  by_cases hk : s.pc.toNat + k ≤ 32767
  · simp only [fetchReg, fetch_at s k hk, Res.bind_ok, reg, accepts_reg, firstOperandFault]
    cases hv : registerOf? o with
    | none => exact .inl ⟨_, by rw [if_neg (by omega)]; rfl, rfl⟩
    | some v => exact .inr ⟨v, rfl, rfl, hk, rfl⟩
  · have hk' : s.pc.toNat + k = 32768 := by omega
    exact .inl ⟨_, by rw [firstOperandFault, if_pos (by omega)], by rw [fetchReg, fetch_at_end s k hk']; rfl⟩

/-- The first operand fault of a list is that of its head, or of its tail when the head has none. -/
theorem firstOperandFault_head {pc k : Nat} {p : OperandKind × Operand} {tr : Trap}
    (h : firstOperandFault pc k [p] = some tr) (ps : List (OperandKind × Operand)) :
    firstOperandFault pc k (p :: ps) = some tr := by
  obtain ⟨kind, o⟩ := p
  simp only [firstOperandFault] at h ⊢
  split at h
  · rw [if_pos ‹_›, h]
  · split at h
    · cases h
    · rw [if_neg ‹_›, if_neg ‹_›, h]

theorem firstOperandFault_tail {pc k : Nat} {kind : OperandKind} {o : Operand} (hk : pc + k ≤ 32767)
    (ha : kind.accepts o = true) (ps : List (OperandKind × Operand)) :
    firstOperandFault pc k ((kind, o) :: ps) = firstOperandFault pc (k + 1) ps := by
  rw [firstOperandFault, if_neg (by omega), if_pos ha]

theorem operandsZ_ok (s : State) (h : s.pc.toNat ≤ 32767) : operandsZ s = .ok () (s.setPc (s.pc + 1)) := by
  rw [operandsZ, fetch_ok _ _ h]
  rfl

theorem operandsR_cases (s : State) (a : Operand) (h : s.pc.toNat ≤ 32767) :
    (∃ tr, firstOperandFault s.pc.toNat 1 [(.reg, a)] = some tr ∧ operandsR a s = .raised (s.trapped tr)) ∨
    (∃ d, registerOf? a = some d ∧ OperandKind.reg.accepts a = true ∧ s.pc.toNat + 1 ≤ 32767 ∧
      operandsR a s = .ok d (s.setPc (s.pc + 2))) := by
  simp only [operandsR, operandsZ_ok s h, Res.bind_ok]
  exact fetchReg_at s 1 a (by omega)

theorem operandsV_cases (s : State) (a : Operand) (h : s.pc.toNat ≤ 32767) :
    (∃ tr, firstOperandFault s.pc.toNat 1 [(.val, a)] = some tr ∧ operandsV a s = .raised (s.trapped tr)) ∨
    (∃ v, valueOf? s a = some v ∧ OperandKind.val.accepts a = true ∧ s.pc.toNat + 1 ≤ 32767 ∧
      operandsV a s = .ok v (s.setPc (s.pc + 2))) := by
  simp only [operandsV, operandsZ_ok s h, Res.bind_ok]
  exact fetchVal_at s 1 a (by omega)

theorem operandsRV_cases (s : State) (a b : Operand) (h : s.pc.toNat ≤ 32767) :
    (∃ tr, firstOperandFault s.pc.toNat 1 [(.reg, a), (.val, b)] = some tr ∧
      operandsRV a b s = .raised (s.trapped tr)) ∨
    (∃ d v, registerOf? a = some d ∧ valueOf? s b = some v ∧ s.pc.toNat + 2 ≤ 32767 ∧
      firstOperandFault s.pc.toNat 1 [(.reg, a), (.val, b)] = none ∧
      operandsRV a b s = .ok (d, v) (s.setPc (s.pc + 3))) := by
  unfold operandsRV
  obtain ⟨tr, h1, h2⟩ | ⟨d, hd, had, hk, h2⟩ := operandsR_cases s a h
  · exact .inl ⟨tr, firstOperandFault_head h1 _, by rw [h2]; rfl⟩
  · rw [h2, firstOperandFault_tail hk had, Res.bind_ok]
    obtain ⟨tr, h1, h3⟩ | ⟨v, hv, hav, hk2, h3⟩ := fetchVal_at s 2 b (by omega)
    · exact .inl ⟨tr, h1, by rw [show s.pc + 2 = s.pc + BitVec.ofNat 16 2 from rfl, h3]; rfl⟩
    · exact .inr ⟨d, v, hd, hv, hk2, by rw [firstOperandFault_tail hk2 hav]; rfl,
        by rw [show s.pc + 2 = s.pc + BitVec.ofNat 16 2 from rfl, h3]; rfl⟩

theorem operandsVV_cases (s : State) (a b : Operand) (h : s.pc.toNat ≤ 32767) :
    (∃ tr, firstOperandFault s.pc.toNat 1 [(.val, a), (.val, b)] = some tr ∧
      operandsVV a b s = .raised (s.trapped tr)) ∨
    (∃ v w, valueOf? s a = some v ∧ valueOf? s b = some w ∧ s.pc.toNat + 2 ≤ 32767 ∧
      firstOperandFault s.pc.toNat 1 [(.val, a), (.val, b)] = none ∧
      operandsVV a b s = .ok (v, w) (s.setPc (s.pc + 3))) := by
  unfold operandsVV
  obtain ⟨tr, h1, h2⟩ | ⟨v, hv, hav, hk, h2⟩ := operandsV_cases s a h
  · exact .inl ⟨tr, firstOperandFault_head h1 _, by rw [h2]; rfl⟩
  · rw [h2, firstOperandFault_tail hk hav, Res.bind_ok]
    obtain ⟨tr, h1, h3⟩ | ⟨w, hw, haw, hk2, h3⟩ := fetchVal_at s 2 b (by omega)
    · exact .inl ⟨tr, h1, by rw [show s.pc + 2 = s.pc + BitVec.ofNat 16 2 from rfl, h3]; rfl⟩
    · exact .inr ⟨v, w, hv, hw, hk2, by rw [firstOperandFault_tail hk2 haw]; rfl,
        by rw [show s.pc + 2 = s.pc + BitVec.ofNat 16 2 from rfl, h3]; rfl⟩

/-- A fault among the first two operands is the first fault of all three; without one, the third decides. -/
theorem firstOperandFault_snoc {pc k : Nat} {ps : List (OperandKind × Operand)} (p : OperandKind × Operand) :
    firstOperandFault pc k (ps ++ [p]) =
      match firstOperandFault pc k ps with
      | some tr => some tr
      | none => firstOperandFault pc (k + ps.length) [p] := by
  induction ps generalizing k with
  | nil => rfl
  | cons q ps ih =>
    obtain ⟨kind, o⟩ := q
    simp only [List.cons_append, firstOperandFault, ih, List.length_cons]
    by_cases hk : pc + k > 32767
    · simp only [hk, if_true]
    · by_cases ha : kind.accepts o = true
      · simp only [hk, if_false, ha, if_true, show k + 1 + ps.length = k + (ps.length + 1) by omega]
      · simp only [hk, if_false, ha]
        rfl

theorem operandsRVV_cases (s : State) (a b c : Operand) (h : s.pc.toNat ≤ 32767) :
    (∃ tr, firstOperandFault s.pc.toNat 1 [(.reg, a), (.val, b), (.val, c)] = some tr ∧
      operandsRVV a b c s = .raised (s.trapped tr)) ∨
    (∃ d v w, registerOf? a = some d ∧ valueOf? s b = some v ∧ valueOf? s c = some w ∧ s.pc.toNat + 3 ≤ 32767 ∧
      firstOperandFault s.pc.toNat 1 [(.reg, a), (.val, b), (.val, c)] = none ∧
      operandsRVV a b c s = .ok (d, v, w) (s.setPc (s.pc + 4))) := by
  unfold operandsRVV
  have hs := firstOperandFault_snoc (pc := s.pc.toNat) (k := 1) (ps := [(.reg, a), (.val, b)]) (.val, c)
  simp only [List.cons_append, List.nil_append, List.length_cons, List.length_nil] at hs
  rw [hs]
  obtain ⟨tr, h1, h2⟩ | ⟨d, v, hd, hv, hk, h1, h2⟩ := operandsRV_cases s a b h
  · exact .inl ⟨tr, by rw [h1], by rw [h2]; rfl⟩
  · rw [h2, h1, Res.bind_ok]
    obtain ⟨tr, h3, h4⟩ | ⟨w, hw, haw, hk3, h4⟩ := fetchVal_at s 3 c (by omega)
    · exact .inl ⟨tr, h3, by rw [show s.pc + 3 = s.pc + BitVec.ofNat 16 3 from rfl, h4]; rfl⟩
    · exact .inr ⟨d, v, w, hd, hv, hw, hk3, by
        show firstOperandFault s.pc.toNat 3 [(.val, c)] = none
        rw [firstOperandFault_tail hk3 haw]; rfl,
        by rw [show s.pc + 3 = s.pc + BitVec.ofNat 16 3 from rfl, h4]; rfl⟩

/-! ### Each format where its operands resolve, and where one of them faults -/

theorem no_fault_nil (pc k : Nat) : firstOperandFault pc k [] = none := rfl

theorem operandsR_ok (s : State) (d : RegIndex) (h : s.Room 2) :
    operandsR (.register d) s = .ok d (s.setPc (s.pc + 2)) := by
  have hr : s.pc.toNat + 2 ≤ 32768 := h
  obtain ⟨tr, h1, -⟩ | ⟨d', hd, -, -, h2⟩ := operandsR_cases s (.register d) (by omega)
  · rw [firstOperandFault_tail (by omega) rfl, no_fault_nil] at h1
    cases h1
  · cases hd
    exact h2

theorem operandsV_ok (s : State) {a : Operand} {v : Word} (h : s.Room 2) (ha : valueOf? s a = some v) :
    operandsV a s = .ok v (s.setPc (s.pc + 2)) := by
  have hr : s.pc.toNat + 2 ≤ 32768 := h
  have haa := (accepts_val s a).trans (by rw [ha])
  obtain ⟨tr, h1, -⟩ | ⟨v', hv, -, -, h2⟩ := operandsV_cases s a (by omega)
  · rw [firstOperandFault_tail (by omega) haa, no_fault_nil] at h1
    cases h1
  · cases hv.symm.trans ha
    exact h2

theorem operandsRV_ok (s : State) (d : RegIndex) {b : Operand} {v : Word} (h : s.Room 3) (hb : valueOf? s b = some v) :
    operandsRV (.register d) b s = .ok (d, v) (s.setPc (s.pc + 3)) := by
  have hr : s.pc.toNat + 3 ≤ 32768 := h
  have hba := (accepts_val s b).trans (by rw [hb])
  obtain ⟨tr, h1, -⟩ | ⟨d', v', hd, hv, -, -, h2⟩ := operandsRV_cases s (.register d) b (by omega)
  · rw [firstOperandFault_tail (by omega) rfl, firstOperandFault_tail (by omega) hba, no_fault_nil] at h1
    cases h1
  · cases hd
    cases hv.symm.trans hb
    exact h2

theorem operandsVV_ok (s : State) {a b : Operand} {v w : Word} (h : s.Room 3) (ha : valueOf? s a = some v)
    (hb : valueOf? s b = some w) : operandsVV a b s = .ok (v, w) (s.setPc (s.pc + 3)) := by
  have hr : s.pc.toNat + 3 ≤ 32768 := h
  have haa := (accepts_val s a).trans (by rw [ha])
  have hba := (accepts_val s b).trans (by rw [hb])
  obtain ⟨tr, h1, -⟩ | ⟨v', w', hv, hw, -, -, h2⟩ := operandsVV_cases s a b (by omega)
  · rw [firstOperandFault_tail (by omega) haa, firstOperandFault_tail (by omega) hba, no_fault_nil] at h1
    cases h1
  · cases hv.symm.trans ha
    cases hw.symm.trans hb
    exact h2

theorem operandsRVV_ok (s : State) (d : RegIndex) {b c : Operand} {v w : Word} (h : s.Room 4)
    (hb : valueOf? s b = some v) (hc : valueOf? s c = some w) :
    operandsRVV (.register d) b c s = .ok (d, v, w) (s.setPc (s.pc + 4)) := by
  have hr : s.pc.toNat + 4 ≤ 32768 := h
  have hba := (accepts_val s b).trans (by rw [hb])
  have hca := (accepts_val s c).trans (by rw [hc])
  obtain ⟨tr, h1, -⟩ | ⟨d', v', w', hd, hv, hw, -, -, h2⟩ := operandsRVV_cases s (.register d) b c (by omega)
  · rw [firstOperandFault_tail (by omega) rfl, firstOperandFault_tail (by omega) hba,
      firstOperandFault_tail (by omega) hca, no_fault_nil] at h1
    cases h1
  · cases hd
    cases hv.symm.trans hb
    cases hw.symm.trans hc
    exact h2

theorem operandsR_trap {s : State} {a : Operand} {tr : Trap} (h : s.pc.toNat ≤ 32767)
    (ht : firstOperandFault s.pc.toNat 1 [(.reg, a)] = some tr) : operandsR a s = .raised (s.trapped tr) := by
  obtain ⟨tr', h1, h2⟩ | ⟨_, -, ha, hk, -⟩ := operandsR_cases s a h
  · cases h1.symm.trans ht
    exact h2
  · rw [firstOperandFault_tail hk ha, no_fault_nil] at ht
    cases ht

theorem operandsV_trap {s : State} {a : Operand} {tr : Trap} (h : s.pc.toNat ≤ 32767)
    (ht : firstOperandFault s.pc.toNat 1 [(.val, a)] = some tr) : operandsV a s = .raised (s.trapped tr) := by
  obtain ⟨tr', h1, h2⟩ | ⟨_, -, ha, hk, -⟩ := operandsV_cases s a h
  · cases h1.symm.trans ht
    exact h2
  · rw [firstOperandFault_tail hk ha, no_fault_nil] at ht
    cases ht

theorem operandsRV_trap {s : State} {a b : Operand} {tr : Trap} (h : s.pc.toNat ≤ 32767)
    (ht : firstOperandFault s.pc.toNat 1 [(.reg, a), (.val, b)] = some tr) :
    operandsRV a b s = .raised (s.trapped tr) := by
  obtain ⟨tr', h1, h2⟩ | ⟨_, _, -, -, -, hn, -⟩ := operandsRV_cases s a b h
  · cases h1.symm.trans ht
    exact h2
  · cases hn.symm.trans ht

theorem operandsVV_trap {s : State} {a b : Operand} {tr : Trap} (h : s.pc.toNat ≤ 32767)
    (ht : firstOperandFault s.pc.toNat 1 [(.val, a), (.val, b)] = some tr) :
    operandsVV a b s = .raised (s.trapped tr) := by
  obtain ⟨tr', h1, h2⟩ | ⟨_, _, -, -, -, hn, -⟩ := operandsVV_cases s a b h
  · cases h1.symm.trans ht
    exact h2
  · cases hn.symm.trans ht

theorem operandsRVV_trap {s : State} {a b c : Operand} {tr : Trap} (h : s.pc.toNat ≤ 32767)
    (ht : firstOperandFault s.pc.toNat 1 [(.reg, a), (.val, b), (.val, c)] = some tr) :
    operandsRVV a b c s = .raised (s.trapped tr) := by
  obtain ⟨tr', h1, h2⟩ | ⟨_, _, _, -, -, -, -, hn, -⟩ := operandsRVV_cases s a b c h
  · cases h1.symm.trans ht
    exact h2
  · cases hn.symm.trans ht

end Sys2Proof.Machine
end

