-- ==== Sys2Proof/Laws/Ops.lean ====
section
/-! SUPPORT. What each shared operation can do, said once: jumps and address checks on Words, push, pop, the operand formats
past the end of memory, and a character taken by IN. -/

namespace Sys2Proof.Machine

theorem setWidth_toNat_le (v : Word) : (v.setWidth 16).toNat ≤ 32767 := by
  rw [BitVec.toNat_setWidth]
  omega

/-- R139: the range check of a jump never fires on a Word. -/
theorem jumpTo_word (ia : StoredWord) (v : Word) (s : State) :
    jumpTo ia (v.setWidth 16) s = .ok () (s.setPc (v.setWidth 16)) := by
  have := setWidth_toNat_le v
  rw [jumpTo, if_neg (by omega)]

/-- R162: the range check of an address never fires on a Word. -/
theorem checkAddr_word (ia : StoredWord) (v : Word) (s : State) : checkAddr ia (v.setWidth 16) s = .ok () s := by
  have := setWidth_toNat_le v
  rw [checkAddr, if_neg (by omega)]

/-- R108: a push onto a full stack faults and changes nothing else; otherwise the entry is the new top. -/
theorem push_cases (ia : StoredWord) (v : Word) (s : State) :
    (s.stack.length = s.cfg.stackCapacity ∧ push ia v s = .raised (s.raise .stackOverflow (v.setWidth 16) ia)) ∨
    (s.stack.length ≠ s.cfg.stackCapacity ∧ push ia v s = .ok () (s.setStack (s.stack ++ [v]))) := by
  by_cases h : s.stack.length = s.cfg.stackCapacity
  · exact .inl ⟨h, by rw [push, if_pos (show s.sp = _ from h)]⟩
  · exact .inr ⟨h, by rw [push, if_neg (show ¬ s.sp = _ from h)]⟩

/-- R109: there is nothing to pop, or the last entry is popped. -/
theorem pop_cases (s : State) :
    (s.stack = [] ∧ pop s = none) ∨
    (∃ st v, s.stack = st ++ [v] ∧ pop s = some (v, s.setStack st)) := by
  rcases List.eq_nil_or_concat s.stack with h | ⟨st, v, h⟩
  · exact .inl ⟨h, by simp [pop, h]⟩
  · exact .inr ⟨st, v, by simp [h], by simp [pop, h]⟩

theorem pop_concat (s : State) (st : List Word) (v : Word) (h : s.stack = st ++ [v]) :
    pop s = some (v, s.setStack st) := by
  simp [pop, h]

/-- R173: the return address of a CALL, two words past its opcode word, is a Word, or it is 32768 and the CALL faults. -/
theorem returnAddress_cases (s : State) (h : s.pc.toNat + 2 ≤ 32768) :
    (s.pc.toNat + 2 = 32768 ∧ returnAddress s.pc (s.setPc (s.pc + 2)) =
      .raised (s.trapped { cause := .instructionPointerOutOfRange, info := 32768, words := 2 })) ∨
    (s.pc.toNat + 2 < 32768 ∧ ∃ back : Word, back.toNat = s.pc.toNat + 2 ∧ back.setWidth 16 = s.pc + 2 ∧
      returnAddress s.pc (s.setPc (s.pc + 2)) = .ok back (s.setPc (s.pc + 2))) := by
  have hc : (s.pc + 2).toNat = s.pc.toNat + 2 := cursor_toNat s 2 h
  by_cases he : s.pc.toNat + 2 = 32768
  · have hw : s.pc + 2 = 32768 := BitVec.eq_of_toNat_eq (by rw [hc, he]; rfl)
    refine .inl ⟨he, ?_⟩
    rw [returnAddress, if_pos (by rw [State.setPc_pc, hc]; omega), State.trapped_eq, State.setPc_pc,
      show s.pc + BitVec.ofNat 16 2 = s.pc + 2 from rfl, hw]
  · refine .inr ⟨by omega, (s.pc + 2).setWidth 15, ?_, BitVec.eq_of_toNat_eq ?_, ?_⟩
    · rw [BitVec.toNat_setWidth, hc]
      omega
    · rw [BitVec.toNat_setWidth, BitVec.toNat_setWidth, hc]
      omega
    · rw [returnAddress, if_neg (by rw [State.setPc_pc, hc]; omega)]
      rfl

/-- R185, R189: what a character does, by cases on the newline code. -/
theorem acceptChar_cases (d : RegIndex) (code : Nat) (s : State) :
    (code = 10 ∧ acceptChar d code s = (s.setReg d 10).checkpoint) ∨
    (code ≠ 10 ∧ acceptChar d code s = s.setReg d (BitVec.ofNat 15 (code % 32768))) := by
  by_cases h : code = 10
  · subst h
    exact .inl ⟨rfl, rfl⟩
  · exact .inr ⟨h, by simp [acceptChar, h]⟩

/-- Past the end of memory every format faults at the opcode fetch and changes nothing else. -/
theorem operandsZ_outOfRange (s : State) (h : 32767 < s.pc.toNat) :
    operandsZ s = .raised (s.raise .instructionPointerOutOfRange s.pc s.pc) := by
  rw [operandsZ, fetch_outOfRange _ _ h]
  rfl

theorem operandsR_outOfRange (s : State) (a : Operand) (h : 32767 < s.pc.toNat) :
    operandsR a s = .raised (s.raise .instructionPointerOutOfRange s.pc s.pc) := by
  rw [operandsR, operandsZ_outOfRange s h]
  rfl

theorem operandsV_outOfRange (s : State) (a : Operand) (h : 32767 < s.pc.toNat) :
    operandsV a s = .raised (s.raise .instructionPointerOutOfRange s.pc s.pc) := by
  rw [operandsV, operandsZ_outOfRange s h]
  rfl

theorem operandsRV_outOfRange (s : State) (a b : Operand) (h : 32767 < s.pc.toNat) :
    operandsRV a b s = .raised (s.raise .instructionPointerOutOfRange s.pc s.pc) := by
  rw [operandsRV, operandsR_outOfRange s a h]
  rfl

theorem operandsVV_outOfRange (s : State) (a b : Operand) (h : 32767 < s.pc.toNat) :
    operandsVV a b s = .raised (s.raise .instructionPointerOutOfRange s.pc s.pc) := by
  rw [operandsVV, operandsV_outOfRange s a h]
  rfl

theorem operandsRVV_outOfRange (s : State) (a b c : Operand) (h : 32767 < s.pc.toNat) :
    operandsRVV a b c s = .raised (s.raise .instructionPointerOutOfRange s.pc s.pc) := by
  rw [operandsRVV, operandsRV_outOfRange s a b h]
  rfl

/-- R102, R103, R110: the opcode fetch faults at the end of memory; otherwise an opcode word that is none of the 22
faults, and any other gives the instruction at `pc`. -/
theorem fetchInstr_cases (s : State) :
    (32767 < s.pc.toNat ∧ fetchInstr s = .error (s.raise .instructionPointerOutOfRange s.pc s.pc)) ∨
    (s.pc.toNat ≤ 32767 ∧ instrAt s = none ∧
      fetchInstr s = .error ((s.setPc (s.pc + 1)).raise .unknownOpcode (s.memRead s.pc.toNat) s.pc)) ∨
    (∃ i, s.pc.toNat ≤ 32767 ∧ instrAt s = some i ∧ fetchInstr s = .ok i) := by
  by_cases h : s.pc.toNat ≤ 32767
  · cases hi : instrAt s with
    | none => exact .inr (.inl ⟨h, rfl, by simp only [fetchInstr, fetch_ok _ _ h, hi]⟩)
    | some i => exact .inr (.inr ⟨i, h, rfl, by simp only [fetchInstr, fetch_ok _ _ h, hi]⟩)
  · exact .inl ⟨by omega, by simp only [fetchInstr, fetch_outOfRange _ _ (Nat.lt_of_not_le h)]⟩

end Sys2Proof.Machine
end

