-- ==== Sys2Proof/Laws/Decode.lean ====
section
/-! SUPPORT. What decoding can do, said once: operand words and operands are the same thing read two ways (`30_encoding.md`
R83), and the instruction at `pc` is well formed, has the opcode word there, and is absent exactly when that word is
none of the 22 (R88, R89). -/

namespace Sys2Proof

/-- R83: every operand word is the word of the operand it decodes to, which is well formed. -/
theorem Operand.toWord_ofWord (w : StoredWord) : (Operand.ofWord w).toWord = w ∧ (Operand.ofWord w).wf = true := by
  unfold Operand.ofWord
  split
  · refine ⟨BitVec.eq_of_toNat_eq ?_, rfl⟩
    simp only [Operand.toWord, BitVec.toNat_setWidth]
    omega
  · split
    · refine ⟨BitVec.eq_of_toNat_eq ?_, rfl⟩
      simp only [Operand.toWord, BitVec.toNat_ofNat]
      omega
    · refine ⟨rfl, ?_⟩
      simp only [Operand.wf, decide_eq_true_eq]
      omega

/-- R83: the three ranges of an operand word. -/
theorem Operand.ofWord_literal (w : StoredWord) (h : w.toNat < 32768) : Operand.ofWord w = .literal (w.setWidth 15) := by
  rw [Operand.ofWord, if_pos h]

theorem Operand.ofWord_register (w : StoredWord) (r : RegIndex) (h : w.toNat = 32768 + r.val) :
    Operand.ofWord w = .register r := by
  have hr := r.isLt
  rw [Operand.ofWord, if_neg (by omega), dif_pos (by omega)]
  exact congrArg Operand.register (Fin.ext (by simp only []; omega))

theorem Operand.ofWord_invalid (w : StoredWord) (h : 32776 ≤ w.toNat) : Operand.ofWord w = .invalid w := by
  rw [Operand.ofWord, if_neg (by omega), dif_neg (by omega)]

/-- R83: a well-formed operand is read back from its word. -/
theorem Operand.ofWord_toWord (o : Operand) (h : o.wf = true) : Operand.ofWord o.toWord = o := by
  cases o with
  | literal v =>
    have hn : (v.setWidth 16).toNat = v.toNat := by
      rw [BitVec.toNat_setWidth]
      omega
    refine (Operand.ofWord_literal (v.setWidth 16) (by omega)).trans (congrArg Operand.literal ?_)
    apply BitVec.eq_of_toNat_eq
    rw [BitVec.toNat_setWidth, hn]
    omega
  | register r =>
    have hr := r.isLt
    refine Operand.ofWord_register (BitVec.ofNat 16 (32768 + r.val)) r ?_
    rw [BitVec.toNat_ofNat]
    omega
  | invalid w => exact Operand.ofWord_invalid w (of_decide_eq_true h)

namespace Machine

/-- R88, R89: there is no instruction at `pc` exactly when the word there is none of the 22 opcodes. -/
theorem instrAt_none_iff {s : State} : instrAt s = none ↔ 22 ≤ (s.memRead s.pc.toNat).toNat := by
  unfold instrAt decodeWindow
  simp only
  constructor
  · intro h
    by_contra hc
    generalize hn : (s.memRead s.pc.toNat).toNat = n at h hc
    interval_cases n <;> cases h
  · intro h
    split
    all_goals first
      | rfl
      | omega

/-- The instruction at `pc` is well formed, and its opcode is the word at `pc`. -/
theorem instrAt_wf {s : State} {i : Instr} (h : instrAt s = some i) :
    i.wf = true ∧ i.opcode = s.memRead s.pc.toNat := by
  have hlt : (s.memRead s.pc.toNat).toNat < 22 := by
    by_contra hc
    rw [instrAt_none_iff.2 (by omega)] at h
    cases h
  unfold instrAt decodeWindow at h
  simp only at h
  generalize hn : (s.memRead s.pc.toNat).toNat = n at h hlt
  have hw : s.memRead s.pc.toNat = BitVec.ofNat 16 n :=
    BitVec.eq_of_toNat_eq (by rw [hn, BitVec.toNat_ofNat]; omega)
  interval_cases n <;> cases h <;>
    exact ⟨by simp [Instr.wf, Instr.operands, Operand.toWord_ofWord], hw.symm⟩

end Machine

end Sys2Proof
end

