-- ==== Sys2Proof/Laws/Exec.lean ====
section
/-! SUPPORT. What `exec` and `step` can do, said once: a fault that changes `pc` and the fault record alone, the
instruction's own effect, or, for IN, no outcome while the host has not answered (`40_step_and_operands.md` R112,
`60_exceptions.md` R211). Invariants and frames follow from this by cases on the instruction. -/

namespace Sys2Proof.Machine

/-- What every trap of an instruction meets: its cause is none of the two dead ones (C3), and, where the instruction is
well formed and starts at a legal `pc`, its `info` fits the cause (R201 to R209) and the cursor stays legal (R27). -/
def Trap.Ok (s : State) (wf : Bool) (tr : Trap) : Prop :=
  tr.cause ≠ .invalidJumpTarget ∧ tr.cause ≠ .addressOutOfRange ∧
  (wf = true → s.pc.toNat ≤ 32768 →
    FaultRecord.infoFits { cause := some tr.cause, info := tr.info, faultPc := 0, instrAddr := 0 } = true ∧
      s.pc.toNat + tr.words ≤ 32768)

/-- The state after an instruction that completes, as far as its shape goes; the value an operation computes is left
open. -/
def Effect (s : State) (t : State) : Instr → Prop
  | .halt => t = (s.setPc (s.pc + 1)).setHalted
  | .nop => t = s.setPc (s.pc + 1)
  | .set a _ | .not a _ | .rmem a _ => ∃ d v, a = .register d ∧ t = (s.setPc (s.pc + 3)).setReg d v
  | .eq a _ _ | .gt a _ _ | .add a _ _ | .mult a _ _ | .mod a _ _ | .and a _ _ | .or a _ _ =>
    ∃ d v, a = .register d ∧ t = (s.setPc (s.pc + 4)).setReg d v
  | .push a => ∃ v, valueOf? s a = some v ∧ s.stack.length ≠ s.cfg.stackCapacity ∧
      t = (s.setPc (s.pc + 2)).setStack (s.stack ++ [v])
  | .pop a => ∃ d v st, a = .register d ∧ s.stack = st ++ [v] ∧ t = ((s.setPc (s.pc + 2)).setStack st).setReg d v
  | .jmp _ => ∃ target : Word, t = s.setPc (target.setWidth 16)
  | .jt _ _ | .jf _ _ => t = s.setPc (s.pc + 3) ∨ ∃ target : Word, t = s.setPc (target.setWidth 16)
  | .wmem a _ => ∃ e v : Word, valueOf? s a = some e ∧ t = (s.setPc (s.pc + 3)).memWrite e.toNat (v.setWidth 16)
  | .call _ => ∃ back target : Word, back.toNat = s.pc.toNat + 2 ∧ s.stack.length ≠ s.cfg.stackCapacity ∧
      t = (s.setStack (s.stack ++ [back])).setPc (target.setWidth 16)
  | .ret => (s.stack = [] ∧ t = (s.setPc (s.pc + 1)).setHalted) ∨
      ∃ st target, s.stack = st ++ [target] ∧ t = (s.setStack st).setPc (target.setWidth 16)
  | .out _ => ∃ c, t = (s.setPc (s.pc + 2)).emit c
  | .input a => ∃ d rest, a = .register d ∧
      ((s.input = .eof :: rest ∧ t = ((s.setPc (s.pc + 2)).setInput rest).setHalted) ∨
       ∃ code, s.input = .char code :: rest ∧ t = acceptChar d code ((s.setPc (s.pc + 2)).setInput rest))

/-- The three things `exec` can do. -/
def ExecCases (i : Instr) (s : State) : Prop :=
  (∃ tr, exec i s = .next (s.trapped tr) ∧ tr.Ok s i.wf) ∨
  (∃ t, exec i s = .next t ∧ s.Room i.length ∧ Effect s t i) ∨
  (s.input = [] ∧ s.Room 2 ∧ (∃ d, i = .input (.register d)) ∧ exec i s = .fault .awaitingInput)

/-- R201, R202, R204: what the first operand fault records. -/
theorem firstOperandFault_ok {s : State} {ps : List (OperandKind × Operand)} {k : Nat} {tr : Trap}
    (hk : s.pc.toNat + k ≤ 32768) (h : firstOperandFault s.pc.toNat k ps = some tr) :
    tr.Ok s (ps.all fun p => p.2.wf) := by
  induction ps generalizing k with
  | nil => cases h
  | cons p ps ih =>
    obtain ⟨kind, o⟩ := p
    simp only [firstOperandFault] at h
    simp only [List.all_cons]
    split at h
    · cases h
      exact ⟨nofun, nofun, fun _ _ => ⟨rfl, hk⟩⟩
    · split at h
      · obtain ⟨h1, h2, h3⟩ := ih (by omega) h
        exact ⟨h1, h2, fun hw hp => h3 (Bool.and_eq_true_iff.1 hw).2 hp⟩
      · cases h
        refine ⟨by cases kind <;> nofun, by cases kind <;> nofun, fun hw _ => ⟨?_, ?_⟩⟩
        · have ho := (Bool.and_eq_true_iff.1 hw).1
          cases kind <;> cases o with
          | literal v =>
            first
            | exact absurd rfl ‹_›
            | have := setWidth_toNat_le v
              exact decide_eq_true (.inl (by simp only [Operand.toWord]; omega))
          | register r => exact absurd rfl ‹_›
          | invalid w =>
            have hw' : 32776 ≤ w.toNat := of_decide_eq_true ho
            first
            | exact decide_eq_true hw'
            | exact decide_eq_true (.inr hw')
        · show s.pc.toNat + (k + 1) ≤ 32768
          omega

/-- Past the end of memory the opcode fetch faults. -/
theorem raise_eq_trapped (s : State) :
    s.raise .instructionPointerOutOfRange s.pc s.pc =
      s.trapped { cause := .instructionPointerOutOfRange, info := s.pc, words := 0 } := by
  simp [State.raise, State.trapped]

theorem outOfRange_ok (s : State) (h : 32767 < s.pc.toNat) (wf : Bool) :
    Trap.Ok s wf { cause := .instructionPointerOutOfRange, info := s.pc, words := 0 } := by
  refine ⟨nofun, nofun, fun _ hp => ⟨?_, hp⟩⟩
  have : s.pc = 32768 := BitVec.eq_of_toNat_eq (show s.pc.toNat = 32768 by omega)
  simp only [this]
  rfl

theorem execCases_outOfRange {i : Instr} {s : State} (h : 32767 < s.pc.toNat)
    (he : exec i s = .next (s.raise .instructionPointerOutOfRange s.pc s.pc)) : ExecCases i s := by
  exact .inl ⟨_, by rw [he, raise_eq_trapped], outOfRange_ok s h _⟩

theorem execCases_trap {i : Instr} {s : State} {tr : Trap} (he : exec i s = .next (s.trapped tr))
    (h : s.pc.toNat ≤ 32767) (ht : firstOperandFault s.pc.toNat 1 i.operands = some tr) : ExecCases i s :=
  .inl ⟨tr, he, firstOperandFault_ok (by omega) ht⟩

theorem execCases_done {i : Instr} {s t : State} (he : exec i s = .next t) (hr : s.Room i.length)
    (ht : Effect s t i) : ExecCases i s := .inr (.inl ⟨t, he, hr, ht⟩)

/-- A format-RVV instruction that writes one register. -/
theorem execCases_binary {i : Instr} {s : State} {a b c : Operand} (f : Word → Word → Word)
    (hi : exec i s = (operandsRVV a b c s).andThen fun p t => .next (t.setReg p.1 (f p.2.1 p.2.2)))
    (ho : i.operands = [(.reg, a), (.val, b), (.val, c)])
    (ht : ∀ d v, a = .register d → Effect s ((s.setPc (s.pc + 4)).setReg d v) i) : ExecCases i s := by
  by_cases h : s.pc.toNat ≤ 32767
  · obtain ⟨tr, h1, h2⟩ | ⟨d, v, w, hd, hv, hw, hr, -, h2⟩ := operandsRVV_cases s a b c h
    · exact execCases_trap (by rw [hi, h2]; rfl) h (by rw [ho, h1])
    · refine execCases_done (by rw [hi, h2]; rfl) ?_ (ht d _ (registerOf?_eq_some.1 hd))
      simp only [State.Room, Instr.length, ho, List.length_cons, List.length_nil]
      omega
  · have h := Nat.lt_of_not_le h
    exact execCases_outOfRange h (by rw [hi, operandsRVV_outOfRange s a b c h]; rfl)

/-- A format-RV instruction that writes one register. -/
theorem execCases_unary {i : Instr} {s : State} {a b : Operand} (f : State → Word → Word)
    (hi : exec i s = (operandsRV a b s).andThen fun p t => .next (t.setReg p.1 (f t p.2)))
    (ho : i.operands = [(.reg, a), (.val, b)])
    (ht : ∀ d v, a = .register d → Effect s ((s.setPc (s.pc + 3)).setReg d v) i) : ExecCases i s := by
  by_cases h : s.pc.toNat ≤ 32767
  · obtain ⟨tr, h1, h2⟩ | ⟨d, v, hd, hv, hr, -, h2⟩ := operandsRV_cases s a b h
    · exact execCases_trap (by rw [hi, h2]; rfl) h (by rw [ho, h1])
    · refine execCases_done (by rw [hi, h2]; rfl) ?_ (ht d _ (registerOf?_eq_some.1 hd))
      simp only [State.Room, Instr.length, ho, List.length_cons, List.length_nil]
      omega
  · have h := Nat.lt_of_not_le h
    exact execCases_outOfRange h (by rw [hi, operandsRV_outOfRange s a b h]; rfl)

theorem execCases_halt (s : State) : ExecCases .halt s := by
  by_cases h : s.pc.toNat ≤ 32767
  · exact execCases_done (by rw [exec, execHalt, operandsZ_ok s h]; rfl) (Nat.succ_le_succ h) rfl
  · have h := Nat.lt_of_not_le h
    exact execCases_outOfRange h (by rw [exec, execHalt, operandsZ_outOfRange s h]; rfl)

theorem execCases_nop (s : State) : ExecCases .nop s := by
  by_cases h : s.pc.toNat ≤ 32767
  · exact execCases_done (by rw [exec, execNop, operandsZ_ok s h]; rfl) (Nat.succ_le_succ h) rfl
  · have h := Nat.lt_of_not_le h
    exact execCases_outOfRange h (by rw [exec, execNop, operandsZ_outOfRange s h]; rfl)

theorem execCases_mod (s : State) (a b c : Operand) : ExecCases (.mod a b c) s := by
  by_cases h : s.pc.toNat ≤ 32767
  · obtain ⟨tr, h1, h2⟩ | ⟨d, v, w, hd, hv, hw, hr, -, h2⟩ := operandsRVV_cases s a b c h
    · exact execCases_trap (by rw [exec, execMod, h2]; rfl) h h1
    · by_cases hz : w = 0
      · refine .inl ⟨{ cause := .divisionByZero, info := c.toWord, words := 4 },
          by rw [exec, execMod, h2, Res.andThen_ok, if_pos hz]; rfl, nofun, nofun,
          fun _ _ => ⟨decide_eq_true ?_, show s.pc.toNat + 4 ≤ 32768 by omega⟩⟩
        subst hz
        cases c with
        | literal v =>
          cases hw
          exact .inl rfl
        | register r =>
          have := r.isLt
          simp only [Operand.toWord, BitVec.toNat_ofNat]
          omega
        | invalid w => cases hw
      · exact execCases_done (by rw [exec, execMod, h2, Res.andThen_ok, if_neg hz]) (show s.pc.toNat + 4 ≤ 32768 by omega)
          ⟨d, _, registerOf?_eq_some.1 hd, rfl⟩
  · have h := Nat.lt_of_not_le h
    exact execCases_outOfRange h (by rw [exec, execMod, operandsRVV_outOfRange s a b c h]; rfl)

theorem execCases_rmem (s : State) (a b : Operand) : ExecCases (.rmem a b) s := by
  refine execCases_unary (fun t v => (t.memRead v.toNat).setWidth 15) ?_ rfl fun d v hd => ⟨d, v, hd, rfl⟩
  simp only [exec, execRmem, checkAddr_word, Res.andThen_ok]

theorem execCases_push (s : State) (a : Operand) : ExecCases (.push a) s := by
  by_cases h : s.pc.toNat ≤ 32767
  · obtain ⟨tr, h1, h2⟩ | ⟨v, hv, -, hr, h2⟩ := operandsV_cases s a h
    · exact execCases_trap (by rw [exec, execPush, h2]; rfl) h h1
    · obtain ⟨hs, h3⟩ | ⟨hs, h3⟩ := push_cases s.pc v (s.setPc (s.pc + 2))
      · refine .inl ⟨{ cause := .stackOverflow, info := v.setWidth 16, words := 2 },
          by rw [exec, execPush, h2, Res.andThen_ok, h3]; rfl, nofun, nofun,
          fun _ _ => ⟨decide_eq_true (setWidth_toNat_le v), show s.pc.toNat + 2 ≤ 32768 by omega⟩⟩
      · exact execCases_done (by rw [exec, execPush, h2, Res.andThen_ok, h3]; rfl) (show s.pc.toNat + 2 ≤ 32768 by omega)
          ⟨v, hv, hs, rfl⟩
  · have h := Nat.lt_of_not_le h
    exact execCases_outOfRange h (by rw [exec, execPush, operandsV_outOfRange s a h]; rfl)

theorem execCases_pop (s : State) (a : Operand) : ExecCases (.pop a) s := by
  by_cases h : s.pc.toNat ≤ 32767
  · obtain ⟨tr, h1, h2⟩ | ⟨d, hd, -, hr, h2⟩ := operandsR_cases s a h
    · exact execCases_trap (by rw [exec, execPop, h2]; rfl) h h1
    · obtain ⟨hs, h3⟩ | ⟨st, v, hs, h3⟩ := pop_cases (s.setPc (s.pc + 2))
      · exact .inl ⟨{ cause := .stackUnderflow, info := 0, words := 2 },
          by rw [exec, execPop, h2, Res.andThen_ok, h3]; rfl, nofun, nofun,
          fun _ _ => ⟨rfl, show s.pc.toNat + 2 ≤ 32768 by omega⟩⟩
      · exact execCases_done (by rw [exec, execPop, h2, Res.andThen_ok, h3]) (show s.pc.toNat + 2 ≤ 32768 by omega)
          ⟨d, v, st, registerOf?_eq_some.1 hd, hs, rfl⟩
  · have h := Nat.lt_of_not_le h
    exact execCases_outOfRange h (by rw [exec, execPop, operandsR_outOfRange s a h]; rfl)

theorem jumpIf_cases (cond : Bool) (ia : StoredWord) (target : Word) (s : State) :
    jumpIf cond ia target s = .next (if cond then s.setPc (target.setWidth 16) else s) := by
  cases cond
  · rfl
  · simp only [jumpIf, jumpTo_word, Res.andThen_ok, if_true]

theorem execCases_jmp (s : State) (a : Operand) : ExecCases (.jmp a) s := by
  by_cases h : s.pc.toNat ≤ 32767
  · obtain ⟨tr, h1, h2⟩ | ⟨v, hv, -, hr, h2⟩ := operandsV_cases s a h
    · exact execCases_trap (by rw [exec, execJmp, h2]; rfl) h h1
    · exact execCases_done (by rw [exec, execJmp, h2, Res.andThen_ok, jumpIf_cases]; rfl) (show s.pc.toNat + 2 ≤ 32768 by omega)
        ⟨v, rfl⟩
  · have h := Nat.lt_of_not_le h
    exact execCases_outOfRange h (by rw [exec, execJmp, operandsV_outOfRange s a h]; rfl)

/-- JT and JF. -/
theorem execCases_branch {i : Instr} {s : State} {a b : Operand} (cond : Word → Bool)
    (hi : exec i s = (operandsVV a b s).andThen fun p t => jumpIf (cond p.1) s.pc p.2 t)
    (ho : i.operands = [(.val, a), (.val, b)])
    (ht : ∀ t, (t = s.setPc (s.pc + 3) ∨ ∃ target : Word, t = s.setPc (target.setWidth 16)) → Effect s t i) :
    ExecCases i s := by
  by_cases h : s.pc.toNat ≤ 32767
  · obtain ⟨tr, h1, h2⟩ | ⟨v, w, hv, hw, hr, -, h2⟩ := operandsVV_cases s a b h
    · exact execCases_trap (by rw [hi, h2]; rfl) h (by rw [ho, h1])
    · refine execCases_done (by rw [hi, h2, Res.andThen_ok, jumpIf_cases]) ?_ (ht _ ?_)
      · simp only [State.Room, Instr.length, ho, List.length_cons, List.length_nil]
        omega
      · cases cond v
        · exact .inl rfl
        · exact .inr ⟨w, rfl⟩
  · have h := Nat.lt_of_not_le h
    exact execCases_outOfRange h (by rw [hi, operandsVV_outOfRange s a b h]; rfl)

theorem execCases_wmem (s : State) (a b : Operand) : ExecCases (.wmem a b) s := by
  by_cases h : s.pc.toNat ≤ 32767
  · obtain ⟨tr, h1, h2⟩ | ⟨v, w, hv, hw, hr, -, h2⟩ := operandsVV_cases s a b h
    · exact execCases_trap (by rw [exec, execWmem, h2]; rfl) h h1
    · exact execCases_done (by rw [exec, execWmem, h2, Res.andThen_ok, checkAddr_word, Res.andThen_ok])
        (show s.pc.toNat + 3 ≤ 32768 by omega) ⟨v, w, hv, rfl⟩
  · have h := Nat.lt_of_not_le h
    exact execCases_outOfRange h (by rw [exec, execWmem, operandsVV_outOfRange s a b h]; rfl)

theorem execCases_call (s : State) (a : Operand) : ExecCases (.call a) s := by
  by_cases h : s.pc.toNat ≤ 32767
  · obtain ⟨tr, h1, h2⟩ | ⟨v, hv, -, hr, h2⟩ := operandsV_cases s a h
    · exact execCases_trap (by rw [exec, execCall, h2]; rfl) h h1
    · obtain ⟨-, h3⟩ | ⟨-, back, hb, hw, h3⟩ := returnAddress_cases s (by omega)
      · exact .inl ⟨{ cause := .instructionPointerOutOfRange, info := 32768, words := 2 },
          by rw [exec, execCall, h2, Res.andThen_ok, h3]; rfl, nofun, nofun,
          fun _ _ => ⟨rfl, show s.pc.toNat + 2 ≤ 32768 by omega⟩⟩
      · obtain ⟨hs, h4⟩ | ⟨hs, h4⟩ := push_cases s.pc back (s.setPc (s.pc + 2))
        · refine .inl ⟨{ cause := .stackOverflow, info := back.setWidth 16, words := 2 },
            by rw [exec, execCall, h2, Res.andThen_ok, h3, Res.andThen_ok, h4]; rfl, nofun, nofun,
            fun _ _ => ⟨decide_eq_true (setWidth_toNat_le back), show s.pc.toNat + 2 ≤ 32768 by omega⟩⟩
        · exact execCases_done
            (by rw [exec, execCall, h2, Res.andThen_ok, h3, Res.andThen_ok, h4, Res.andThen_ok, jumpTo_word]; rfl)
            (show s.pc.toNat + 2 ≤ 32768 by omega) ⟨back, v, hb, hs, rfl⟩
  · have h := Nat.lt_of_not_le h
    exact execCases_outOfRange h (by rw [exec, execCall, operandsV_outOfRange s a h]; rfl)

theorem execCases_ret (s : State) : ExecCases .ret s := by
  by_cases h : s.pc.toNat ≤ 32767
  · obtain ⟨hs, h3⟩ | ⟨st, v, hs, h3⟩ := pop_cases (s.setPc (s.pc + 1))
    · exact execCases_done (by rw [exec, execRet, operandsZ_ok s h, Res.andThen_ok, h3]) (Nat.succ_le_succ h)
        (.inl ⟨hs, rfl⟩)
    · refine execCases_done (t := (s.setStack st).setPc (v.setWidth 16)) ?_ (Nat.succ_le_succ h) (.inr ⟨st, v, hs, rfl⟩)
      rw [exec, execRet, operandsZ_ok s h, Res.andThen_ok, h3]
      simp only [jumpTo_word, Res.andThen_ok]
      rfl
  · have h := Nat.lt_of_not_le h
    exact execCases_outOfRange h (by rw [exec, execRet, operandsZ_outOfRange s h]; rfl)

theorem execCases_out (s : State) (a : Operand) : ExecCases (.out a) s := by
  by_cases h : s.pc.toNat ≤ 32767
  · obtain ⟨tr, h1, h2⟩ | ⟨v, hv, -, hr, h2⟩ := operandsV_cases s a h
    · exact execCases_trap (by rw [exec, execOut, h2]; rfl) h h1
    · exact execCases_done (by rw [exec, execOut, h2, Res.andThen_ok]) (show s.pc.toNat + 2 ≤ 32768 by omega) ⟨_, rfl⟩
  · have h := Nat.lt_of_not_le h
    exact execCases_outOfRange h (by rw [exec, execOut, operandsV_outOfRange s a h]; rfl)

theorem execCases_input (s : State) (a : Operand) : ExecCases (.input a) s := by
  by_cases h : s.pc.toNat ≤ 32767
  · obtain ⟨tr, h1, h2⟩ | ⟨d, hd, -, hr, h2⟩ := operandsR_cases s a h
    · exact execCases_trap (by rw [exec, execInput, h2]; rfl) h h1
    · have hroom : s.Room 2 := show s.pc.toNat + 2 ≤ 32768 by omega
      have ha := registerOf?_eq_some.1 hd
      cases hin : s.input with
      | nil =>
        refine .inr (.inr ⟨hin, hroom, ⟨d, by rw [ha]⟩, ?_⟩)
        simp only [exec, execInput, h2, Res.andThen_ok, State.setPc_input, hin]
      | cons ans rest =>
        cases ans with
        | eof =>
          refine execCases_done ?_ hroom ⟨d, rest, ha, .inl ⟨hin, rfl⟩⟩
          simp only [exec, execInput, h2, Res.andThen_ok, State.setPc_input, hin]
        | char code =>
          refine execCases_done ?_ hroom ⟨d, rest, ha, .inr ⟨code, hin, rfl⟩⟩
          simp only [exec, execInput, h2, Res.andThen_ok, State.setPc_input, hin]
  · have h := Nat.lt_of_not_le h
    exact execCases_outOfRange h (by rw [exec, execInput, operandsR_outOfRange s a h]; rfl)

/-- What `exec` can do, for every instruction in every state. -/
theorem exec_cases (i : Instr) (s : State) : ExecCases i s := by
  cases i with
  | halt => exact execCases_halt s
  | set a b => exact execCases_unary (fun _ v => v) rfl rfl fun d v hd => ⟨d, v, hd, rfl⟩
  | push a => exact execCases_push s a
  | pop a => exact execCases_pop s a
  | eq a b c => exact execCases_binary (fun v w => wordOfBool (decide (v.toNat = w.toNat))) rfl rfl fun d v hd => ⟨d, v, hd, rfl⟩
  | gt a b c => exact execCases_binary (fun v w => wordOfBool (decide (v.toNat > w.toNat))) rfl rfl fun d v hd => ⟨d, v, hd, rfl⟩
  | jmp a => exact execCases_jmp s a
  | jt a b => exact execCases_branch (fun v => decide (v ≠ 0)) rfl rfl fun t ht => ht
  | jf a b => exact execCases_branch (fun v => decide (v = 0)) rfl rfl fun t ht => ht
  | add a b c => exact execCases_binary aluAdd rfl rfl fun d v hd => ⟨d, v, hd, rfl⟩
  | mult a b c => exact execCases_binary aluMult rfl rfl fun d v hd => ⟨d, v, hd, rfl⟩
  | mod a b c => exact execCases_mod s a b c
  | and a b c => exact execCases_binary aluAnd rfl rfl fun d v hd => ⟨d, v, hd, rfl⟩
  | or a b c => exact execCases_binary aluOr rfl rfl fun d v hd => ⟨d, v, hd, rfl⟩
  | not a b => exact execCases_unary (fun _ v => aluNot v) rfl rfl fun d v hd => ⟨d, v, hd, rfl⟩
  | rmem a b => exact execCases_rmem s a b
  | wmem a b => exact execCases_wmem s a b
  | call a => exact execCases_call s a
  | ret => exact execCases_ret s
  | out a => exact execCases_out s a
  | input a => exact execCases_input s a
  | nop => exact execCases_nop s

/-- What a step that answers can be: a running machine either takes a fault, or runs the well-formed instruction at `pc`
to its own effect. -/
theorem step_next {s t : State} (h : step s = .next t) :
    s.status = .running ∧
    ((∃ tr, t = s.trapped tr ∧ tr.Ok s true) ∨
     (∃ i, instrAt s = some i ∧ s.Room i.length ∧ Effect s t i)) := by
  unfold step at h
  split at h
  · cases h
  · cases h
  · refine ⟨‹_›, ?_⟩
    obtain ⟨hp, hf⟩ | ⟨hp, hi, hf⟩ | ⟨i, hp, hi, hf⟩ := fetchInstr_cases s
    · rw [hf] at h
      cases h
      exact .inl ⟨_, raise_eq_trapped s, outOfRange_ok s hp _⟩
    · rw [hf] at h
      cases h
      exact .inl ⟨{ cause := .unknownOpcode, info := s.memRead s.pc.toNat, words := 1 }, rfl, nofun, nofun,
        fun _ _ => ⟨decide_eq_true (instrAt_none_iff.1 hi), show s.pc.toNat + 1 ≤ 32768 by omega⟩⟩
    · rw [hf] at h
      obtain ⟨tr, he, hfit⟩ | ⟨t', he, hr, ht⟩ | ⟨-, -, -, he⟩ := exec_cases i s
      · cases he.symm.trans h
        exact .inl ⟨tr, rfl, (instrAt_wf hi).1 ▸ hfit⟩
      · cases he.symm.trans h
        exact .inr ⟨i, hi, hr, ht⟩
      · cases he.symm.trans h

end Sys2Proof.Machine
end

