-- ==== Sys2Proof/Laws/Memory.lean ====
section
/-! SUPPORT. The laws of memory (`20_memory.md` R50 to R53, R56, R67): read after write, and the canonical form. -/

namespace Sys2Proof.Machine

theorem Memory.read_insertSorted (a b : Nat) (v : StoredWord) (m : Memory) (ha : ∀ p ∈ m, p.1 ≠ a) :
    Memory.read (Memory.insertSorted a v m) b = if a = b then v else m.read b := by
  induction m with
  | nil => rfl
  | cons p m ih =>
    obtain ⟨k, w⟩ := p
    have hk : k ≠ a := ha (k, w) (by simp)
    have ih' := ih fun q hq => ha q (by simp [hq])
    simp only [Memory.insertSorted]
    split
    · rfl
    · simp only [Memory.read]
      by_cases hkb : k = b
      · simp [hkb, show ¬ a = b from fun e => hk (hkb.trans e.symm)]
      · rw [if_neg hkb, if_neg hkb, ih']

theorem Memory.read_filter (a b : Nat) (m : Memory) :
    Memory.read (m.filter fun p => p.1 ≠ a) b = if a = b then 0 else m.read b := by
  induction m with
  | nil => simp [Memory.read]
  | cons p m ih =>
    obtain ⟨k, w⟩ := p
    by_cases hka : k = a
    · subst hka
      rw [List.filter_cons_of_neg (by simp), ih]
      by_cases hkb : k = b <;> simp [Memory.read, hkb]
    · rw [List.filter_cons_of_pos (by simp [hka])]
      simp only [Memory.read, ih]
      by_cases hkb : k = b
      · simp [hkb, show ¬ a = b from fun e => hka (hkb.trans e.symm)]
      · simp [hkb]

/-- R53: a write to a cell is read back from it, and every other cell reads as before. -/
theorem Memory.read_write (m : Memory) (a b : Nat) (v : StoredWord) (ha : a < 32768) :
    (m.write a v).read b = if a = b then v else m.read b := by
  simp only [Memory.write, if_pos ha]
  split
  · rename_i hv
    rw [Memory.read_filter, hv]
  · rw [Memory.read_insertSorted _ _ _ _ (by simp), Memory.read_filter]
    split <;> rfl

/-- An address above 32767 names no cell: nothing is written. -/
theorem Memory.write_absent (m : Memory) (a : Nat) (v : StoredWord) (ha : ¬ a < 32768) : m.write a v = m := by
  simp [Memory.write, ha]

theorem Memory.read_write_ne (m : Memory) (a b : Nat) (v : StoredWord) (h : a ≠ b) :
    (m.write a v).read b = m.read b := by
  by_cases ha : a < 32768
  · rw [Memory.read_write _ _ _ _ ha, if_neg h]
  · rw [Memory.write_absent _ _ _ ha]

theorem Memory.wfFrom_mono {lo lo' : Nat} {m : Memory} (h : lo' ≤ lo) (hm : Memory.wfFrom lo m = true) :
    Memory.wfFrom lo' m = true := by
  cases m with
  | nil => rfl
  | cons p m =>
    obtain ⟨k, w⟩ := p
    simp only [Memory.wfFrom, Bool.and_eq_true, decide_eq_true_eq] at hm ⊢
    exact ⟨⟨⟨by omega, hm.1.1.2⟩, hm.1.2⟩, hm.2⟩

theorem Memory.wfFrom_filter (f : Nat × StoredWord → Bool) {lo : Nat} {m : Memory} (hm : Memory.wfFrom lo m = true) :
    Memory.wfFrom lo (m.filter f) = true := by
  induction m generalizing lo with
  | nil => rfl
  | cons p m ih =>
    obtain ⟨k, w⟩ := p
    simp only [Memory.wfFrom, Bool.and_eq_true, decide_eq_true_eq] at hm
    by_cases hf : f (k, w) = true
    · rw [List.filter_cons_of_pos hf]
      simp only [Memory.wfFrom, Bool.and_eq_true, decide_eq_true_eq]
      exact ⟨hm.1, ih hm.2⟩
    · rw [List.filter_cons_of_neg hf]
      exact Memory.wfFrom_mono (by omega) (ih hm.2)

theorem Memory.wfFrom_insertSorted {lo a : Nat} {v : StoredWord} {m : Memory} (hm : Memory.wfFrom lo m = true)
    (hlo : lo ≤ a) (ha : a < 32768) (hv : v ≠ 0) (hne : ∀ p ∈ m, p.1 ≠ a) :
    Memory.wfFrom lo (Memory.insertSorted a v m) = true := by
  induction m generalizing lo with
  | nil => simpa [Memory.insertSorted, Memory.wfFrom, hlo, ha] using hv
  | cons p m ih =>
    obtain ⟨k, w⟩ := p
    simp only [Memory.wfFrom, Bool.and_eq_true, decide_eq_true_eq] at hm
    have hk : k ≠ a := hne (k, w) (by simp)
    simp only [Memory.insertSorted]
    split
    · simp only [Memory.wfFrom, Bool.and_eq_true, decide_eq_true_eq]
      exact ⟨⟨⟨hlo, ha⟩, hv⟩, ⟨⟨by omega, hm.1.1.2⟩, hm.1.2⟩, hm.2⟩
    · simp only [Memory.wfFrom, Bool.and_eq_true, decide_eq_true_eq]
      exact ⟨hm.1, ih hm.2 (by omega) fun q hq => hne q (by simp [hq])⟩

/-- A write keeps the canonical form. -/
theorem Memory.wf_write {m : Memory} (a : Nat) (v : StoredWord) (hm : m.wf = true) : (m.write a v).wf = true := by
  simp only [Memory.wf, Memory.write] at hm ⊢
  split
  · split
    · exact Memory.wfFrom_filter _ hm
    · exact Memory.wfFrom_insertSorted (Memory.wfFrom_filter _ hm) (by omega) ‹_› ‹_› (by simp)
  · exact hm

/-- Placing a list of words keeps the canonical form. -/
theorem Memory.wf_writeWords {m : Memory} (a : Nat) (ws : List StoredWord) (hm : m.wf = true) :
    (m.writeWords a ws).wf = true := by
  induction ws generalizing m a with
  | nil => exact hm
  | cons w ws ih => exact ih (a + 1) (Memory.wf_write a w hm)

theorem memoryOfWords_wfFrom (a : Nat) (ws : List StoredWord) (h : a + ws.length ≤ 32768) :
    Memory.wfFrom a (memoryOfWords a ws) = true := by
  induction ws generalizing a with
  | nil => rfl
  | cons w ws ih =>
    simp only [List.length_cons] at h
    have ih' := ih (a + 1) (by omega)
    simp only [memoryOfWords]
    split
    · exact Memory.wfFrom_mono (by omega) ih'
    · simp only [Memory.wfFrom, Bool.and_eq_true, decide_eq_true_eq]
      exact ⟨⟨⟨Nat.le_refl _, by omega⟩, ‹_›⟩, ih'⟩

/-- A loaded image is in the canonical form. -/
theorem loadImage_wf {image : Option (List Byte)} {m : Memory} (h : loadImage image = .ok m) : m.wf = true := by
  unfold loadImage at h
  split at h
  · cases h
  · split at h
    · cases h
    · split at h
      · cases h
      · cases h
        exact memoryOfWords_wfFrom 0 _ (by omega)

/-- The memory of the reset state is in the canonical form. -/
theorem reset_mem_wf (cfg : Config) : (State.resetWith cfg).mem.wf = true := rfl

end Sys2Proof.Machine
end

