-- ==== Sys2Proof/Laws/PerInstr.lean ====
section
/-! SUPPORT. The per-instruction family `Shape` (`30_encoding.md` R80, R82, R84): the words of an instruction are its opcode
word and its operand words, one word each, 1 to 4 in all. -/

namespace Sys2Proof

/-- R80, R84: an instruction is as long as its words, at most 4, and its first word is its opcode, one of the 22. -/
def Laws.Shape.Statement (i : Instr) : Prop :=
  (encode i).length = i.length ∧ i.length ≤ 4 ∧ (encode i).head? = some i.opcode ∧ i.opcode.toNat < 22

theorem Laws.Shape.halt : Laws.Shape.Statement .halt := ⟨rfl, by decide, rfl, by decide⟩
theorem Laws.Shape.set (a b : Operand) : Laws.Shape.Statement (.set a b) :=
  ⟨rfl, show 3 ≤ 4 by decide, rfl, show (1 : StoredWord).toNat < 22 by decide⟩
theorem Laws.Shape.push (a : Operand) : Laws.Shape.Statement (.push a) :=
  ⟨rfl, show 2 ≤ 4 by decide, rfl, show (2 : StoredWord).toNat < 22 by decide⟩
theorem Laws.Shape.pop (a : Operand) : Laws.Shape.Statement (.pop a) :=
  ⟨rfl, show 2 ≤ 4 by decide, rfl, show (3 : StoredWord).toNat < 22 by decide⟩
theorem Laws.Shape.eq (a b c : Operand) : Laws.Shape.Statement (.eq a b c) :=
  ⟨rfl, show 4 ≤ 4 by decide, rfl, show (4 : StoredWord).toNat < 22 by decide⟩
theorem Laws.Shape.gt (a b c : Operand) : Laws.Shape.Statement (.gt a b c) :=
  ⟨rfl, show 4 ≤ 4 by decide, rfl, show (5 : StoredWord).toNat < 22 by decide⟩
theorem Laws.Shape.jmp (a : Operand) : Laws.Shape.Statement (.jmp a) :=
  ⟨rfl, show 2 ≤ 4 by decide, rfl, show (6 : StoredWord).toNat < 22 by decide⟩
theorem Laws.Shape.jt (a b : Operand) : Laws.Shape.Statement (.jt a b) :=
  ⟨rfl, show 3 ≤ 4 by decide, rfl, show (7 : StoredWord).toNat < 22 by decide⟩
theorem Laws.Shape.jf (a b : Operand) : Laws.Shape.Statement (.jf a b) :=
  ⟨rfl, show 3 ≤ 4 by decide, rfl, show (8 : StoredWord).toNat < 22 by decide⟩
theorem Laws.Shape.add (a b c : Operand) : Laws.Shape.Statement (.add a b c) :=
  ⟨rfl, show 4 ≤ 4 by decide, rfl, show (9 : StoredWord).toNat < 22 by decide⟩
theorem Laws.Shape.mult (a b c : Operand) : Laws.Shape.Statement (.mult a b c) :=
  ⟨rfl, show 4 ≤ 4 by decide, rfl, show (10 : StoredWord).toNat < 22 by decide⟩
theorem Laws.Shape.mod (a b c : Operand) : Laws.Shape.Statement (.mod a b c) :=
  ⟨rfl, show 4 ≤ 4 by decide, rfl, show (11 : StoredWord).toNat < 22 by decide⟩
theorem Laws.Shape.and (a b c : Operand) : Laws.Shape.Statement (.and a b c) :=
  ⟨rfl, show 4 ≤ 4 by decide, rfl, show (12 : StoredWord).toNat < 22 by decide⟩
theorem Laws.Shape.or (a b c : Operand) : Laws.Shape.Statement (.or a b c) :=
  ⟨rfl, show 4 ≤ 4 by decide, rfl, show (13 : StoredWord).toNat < 22 by decide⟩
theorem Laws.Shape.not (a b : Operand) : Laws.Shape.Statement (.not a b) :=
  ⟨rfl, show 3 ≤ 4 by decide, rfl, show (14 : StoredWord).toNat < 22 by decide⟩
theorem Laws.Shape.rmem (a b : Operand) : Laws.Shape.Statement (.rmem a b) :=
  ⟨rfl, show 3 ≤ 4 by decide, rfl, show (15 : StoredWord).toNat < 22 by decide⟩
theorem Laws.Shape.wmem (a b : Operand) : Laws.Shape.Statement (.wmem a b) :=
  ⟨rfl, show 3 ≤ 4 by decide, rfl, show (16 : StoredWord).toNat < 22 by decide⟩
theorem Laws.Shape.call (a : Operand) : Laws.Shape.Statement (.call a) :=
  ⟨rfl, show 2 ≤ 4 by decide, rfl, show (17 : StoredWord).toNat < 22 by decide⟩
theorem Laws.Shape.ret : Laws.Shape.Statement .ret :=
  ⟨rfl, show 1 ≤ 4 by decide, rfl, show (18 : StoredWord).toNat < 22 by decide⟩
theorem Laws.Shape.out (a : Operand) : Laws.Shape.Statement (.out a) :=
  ⟨rfl, show 2 ≤ 4 by decide, rfl, show (19 : StoredWord).toNat < 22 by decide⟩
theorem Laws.Shape.input (a : Operand) : Laws.Shape.Statement (.input a) :=
  ⟨rfl, show 2 ≤ 4 by decide, rfl, show (20 : StoredWord).toNat < 22 by decide⟩
theorem Laws.Shape.nop : Laws.Shape.Statement .nop :=
  ⟨rfl, show 1 ≤ 4 by decide, rfl, show (21 : StoredWord).toNat < 22 by decide⟩

end Sys2Proof
end

