-- ==== Sys2Proof/Tests/Slice0.lean ====
section
/-! SUPPORT. The model's own tests. Expected results are the source's examples and the vectors of `95_test_vectors.md`
(the vector's id stands in each comment), or are worked by hand from the rule named. After them, one witness per
obligation that has hypotheses: concrete states and operands that meet the hypotheses, clause by clause. -/

open Sys2Proof Sys2Proof.Machine

namespace Sys2Proof.Tests

/-! ### Helpers -/

/-- The reset state with `pc` at `p` and the words `ws` in memory from there on. -/
def at' (p : StoredWord) (ws : List StoredWord) : State :=
  { State.reset with pc := p, mem := memoryOfWords p.toNat ws }

/-- A register given a value. -/
def withReg (r : RegIndex) (v : Word) (s : State) : State := { s with regs := s.regs.set r v }

/-- A stack. -/
def withStack (st : List Word) (s : State) : State := { s with stack := st }

/-- A stack capacity. -/
def withCapacity (n : Capacity) (s : State) : State := { s with cfg := { s.cfg with stackCapacity := n } }

/-- Answers on the `in` channel. -/
def withInput (i : List InputAnswer) (s : State) : State := { s with input := i }

/-- The next state, where there is one. -/
def next? : Result → Option State
  | .next t => some t
  | .fault _ => none
  | .refused _ => none

/-- The stop, where there is one. -/
def stop? : Result → Option Fault
  | .next _ => none
  | .fault r => some r
  | .refused _ => none

/-- One fact about the state one step leaves. -/
def stepThen {α : Type} (s : State) (f : State → α) : Option α := (next? (step s)).map f

/-- The fault record as the vectors write it: cause, `info`, `fault_pc`, `instr_addr`. -/
def faultOf (t : State) : Option FaultCause × Nat × Nat × Nat :=
  (t.fault.cause, t.fault.info.toNat, t.fault.faultPc.toNat, t.fault.instrAddr.toNat)

/-! ### WellFormed: an ill-formed term for each check -/

/-- R83: 5 is a Literal's word, so it must not be tagged invalid. -/
theorem test_wf_refuses_small_invalid : (Instr.push (.invalid 5)).wf = false := by decide
/-- R83: 32775 is a register's word. -/
theorem test_wf_refuses_register_word : (Instr.add (.register 0) (.literal 1) (.invalid 32775)).wf = false := by decide
theorem test_wf_accepts : (Instr.add (.register 0) (.literal 1) (.invalid 32776)).wf = true := by decide
/-- R86: a Literal in a register position. -/
theorem test_legal_refuses_literal_register : (Instr.pop (.literal 5)).legal = false := by decide
/-- R86: an invalid word in a register position. -/
theorem test_legal_refuses_invalid_register : (Instr.pop (.invalid 32776)).legal = false := by decide
/-- R85: an invalid word in a value position. -/
theorem test_legal_refuses_invalid_value : (Instr.jt (.literal 0) (.invalid 40000)).legal = false := by decide
theorem test_legal_accepts : (Instr.set (.register 7) (.literal 32767)).legal = true := by decide

/-! ### Decoding: a word of every constructor, written out from R82, R83, R88 -/

theorem test_decode_z : decode [0] = .instr .halt [] ∧ decode [18, 7] = .instr .ret [7] ∧
    decode [21] = .instr .nop [] := by decide
theorem test_decode_r : decode [3, 0x8007] = .instr (.pop (.register 7)) [] ∧
    decode [20, 0x8000] = .instr (.input (.register 0)) [] := by decide
theorem test_decode_v : decode [2, 5] = .instr (.push (.literal 5)) [] ∧
    decode [6, 0x8003] = .instr (.jmp (.register 3)) [] ∧ decode [17, 0x7fff] = .instr (.call (.literal 0x7fff)) [] ∧
    decode [19, 72] = .instr (.out (.literal 72)) [] := by decide
theorem test_decode_rv : decode [1, 0x8000, 4] = .instr (.set (.register 0) (.literal 4)) [] ∧
    decode [14, 0x8002, 0] = .instr (.not (.register 2) (.literal 0)) [] ∧
    decode [15, 0x8001, 100] = .instr (.rmem (.register 1) (.literal 100)) [] := by decide
theorem test_decode_vv : decode [7, 0x8000, 3] = .instr (.jt (.register 0) (.literal 3)) [] ∧
    decode [8, 0, 0x8008] = .instr (.jf (.literal 0) (.invalid 0x8008)) [] ∧
    decode [16, 100, 0x8000] = .instr (.wmem (.literal 100) (.register 0)) [] := by decide
theorem test_decode_compare : decode [4, 0x8000, 0x8001, 9] = .instr (.eq (.register 0) (.register 1) (.literal 9)) [] ∧
    decode [5, 0x8002, 0x7fff, 0] = .instr (.gt (.register 2) (.literal 0x7fff) (.literal 0)) [] := by decide
theorem test_decode_arith :
    decode [9, 0x8002, 0x8000, 0x8001] = .instr (.add (.register 2) (.register 0) (.register 1)) [] ∧
    decode [10, 0x8000, 0x7fff, 2] = .instr (.mult (.register 0) (.literal 0x7fff) (.literal 2)) [] ∧
    decode [11, 0x8000, 17, 5] = .instr (.mod (.register 0) (.literal 17) (.literal 5)) [] := by decide
theorem test_decode_logic : decode [12, 0x8000, 12, 10] = .instr (.and (.register 0) (.literal 12) (.literal 10)) [] ∧
    decode [13, 0x8001, 12, 10] = .instr (.or (.register 1) (.literal 12) (.literal 10)) [] := by decide
/-- R81, R89: F1, F2, F3; and a word list that ends inside an instruction. -/
theorem test_decode_refuses : decode [22] = .refused (.unknownOpcode 22) ∧
    decode [32768] = .refused (.unknownOpcode 32768) ∧ decode [65535] = .refused (.unknownOpcode 65535) ∧
    decode [9, 32768, 1] = .refused .truncated ∧ decode [] = .refused .truncated := by decide
/-- S9: the image bytes `09 00 02 80 00 80 01 80`. -/
theorem test_decode_bytes : decodeBytes [0x09, 0x00, 0x02, 0x80, 0x00, 0x80, 0x01, 0x80] =
    .instr (.add (.register 2) (.register 0) (.register 1)) [] := by decide
/-- A table word: bits 15..0 the opcode word, the operand words above it. -/
theorem test_decode_table_word : decodeTableWord 48 (1 + 0x8003 * 2 ^ 16 + 77 * 2 ^ 32) =
    some (.set (.register 3) (.literal 77)) ∧ decodeTableWord 16 9 =
    some (.add (.literal 0) (.literal 0) (.literal 0)) ∧ decodeTableWord 16 22 = none := by decide
/-- The step runs the instruction that was placed. -/
theorem test_with_fetch_word :
    stepThen (State.reset.withFetchWord 48 (1 + 0x8003 * 2 ^ 16 + 77 * 2 ^ 32)) (fun t => (t.reg 3, t.pc)) =
      some (77, 3) := by decide

/-! ### Instructions, at most two vectors each -/

/-- F7. -/
theorem test_set : stepThen (at' 0 [1, 32775, 32767]) (fun t => (t.reg 7, t.pc)) = some (32767, 3) := by decide
/-- F6. -/
theorem test_set_invalid : stepThen (at' 0 [1, 32768, 32776, 7]) (fun t => (faultOf t, t.reg 0)) =
    some ((some .invalidOperand, 32776, 3, 0), 0) := by decide
/-- M3. -/
theorem test_push : stepThen (withReg 2 9 (at' 0 [2, 32770])) (fun t => (t.stack, t.pc)) = some ([9], 2) := by decide
/-- M4. -/
theorem test_push_full : stepThen (withCapacity ⟨2, by decide⟩ (withStack [1, 2] (at' 0 [2, 9]))) (fun t => (faultOf t, t.stack)) =
    some ((some .stackOverflow, 9, 2, 0), [1, 2]) := by decide
/-- M6. -/
theorem test_pop : stepThen (withStack [5, 6] (at' 0 [3, 32768])) (fun t => (t.reg 0, t.stack)) = some (6, [5]) := by
  decide
/-- M5. -/
theorem test_pop_literal : stepThen (at' 0 [3, 5]) faultOf = some (some .invalidRegister, 5, 2, 0) := by decide
/-- C1. -/
theorem test_eq : stepThen (withReg 1 9 (at' 0 [4, 32768, 32769, 9])) (fun t => (t.reg 0, t.pc)) = some (1, 4) := by
  decide
/-- S4, the second EQ. -/
theorem test_eq_differ : stepThen (withReg 1 3 (at' 4 [4, 32769, 7, 8])) (fun t => t.reg 1) = some 0 := by decide
/-- C3. -/
theorem test_gt : stepThen (at' 0 [5, 32770, 32767, 0]) (fun t => t.reg 2) = some 1 := by decide
/-- C4, the register holding 3 before. -/
theorem test_gt_less : stepThen (withReg 3 3 (at' 0 [5, 32771, 0, 32767])) (fun t => t.reg 3) = some 0 := by decide
/-- J2. -/
theorem test_jmp_register : stepThen (withReg 3 4 (at' 0 [6, 32771])) (fun t => t.pc) = some 4 := by decide
/-- J8. -/
theorem test_jmp_top : stepThen (at' 32766 [6, 5]) (fun t => (t.pc, t.status)) = some (5, .running) := by decide
/-- J3, J4. -/
theorem test_jt : stepThen (withReg 0 2 (at' 7 [7, 32768, 3])) (fun t => t.pc) = some 3 ∧
    stepThen (at' 7 [7, 32768, 3]) (fun t => t.pc) = some 10 := by decide
/-- J7. -/
theorem test_jt_untaken_invalid : stepThen (at' 0 [7, 0, 40000]) faultOf = some (some .invalidOperand, 40000, 3, 0) := by
  decide
/-- J5. -/
theorem test_jf : stepThen (at' 0 [8, 32768, 20]) (fun t => t.pc) = some 20 := by decide
/-- J6. -/
theorem test_jf_untaken : stepThen (withReg 0 1 (at' 4 [8, 32768, 20])) (fun t => t.pc) = some 7 := by decide
/-- S1. -/
theorem test_add_wraps : stepThen (at' 0 [9, 32768, 32767, 2]) (fun t => (t.reg 0, t.pc)) = some (1, 4) := by decide
/-- A3: the destination is both sources. -/
theorem test_add_self : stepThen (withReg 2 20000 (at' 0 [9, 32770, 32770, 32770])) (fun t => t.reg 2) = some 7232 := by
  decide
/-- S2. -/
theorem test_mult : stepThen (at' 0 [10, 32768, 32767, 2]) (fun t => t.reg 0) = some 32766 := by decide
/-- A7. -/
theorem test_mult_wraps : stepThen (at' 0 [10, 32770, 181, 182]) (fun t => t.reg 2) = some 174 := by decide
/-- A9. -/
theorem test_mod : stepThen (at' 0 [11, 32768, 17, 5]) (fun t => t.reg 0) = some 2 := by decide
/-- P7, its second step: `info` is the divisor's operand word. -/
theorem test_mod_zero : stepThen (at' 3 [11, 32768, 7, 32769]) faultOf = some (some .divisionByZero, 32769, 7, 3) := by
  decide
/-- A16. -/
theorem test_and : stepThen (at' 0 [12, 32768, 12, 10]) (fun t => t.reg 0) = some 8 := by decide
/-- A18. -/
theorem test_and_mask : stepThen (at' 0 [12, 32773, 32767, 21845]) (fun t => t.reg 5) = some 21845 := by decide
/-- A17. -/
theorem test_or : stepThen (at' 0 [13, 32769, 12, 10]) (fun t => t.reg 1) = some 14 := by decide
/-- A21. -/
theorem test_not : stepThen (at' 0 [14, 32772, 21845]) (fun t => t.reg 4) = some 10922 := by decide
/-- A19. -/
theorem test_not_zero : stepThen (at' 0 [14, 32770, 0]) (fun t => (t.reg 2, t.pc)) = some (32767, 3) := by decide
/-- L3: bit 15 of the cell is dropped. -/
theorem test_rmem_drops_bit15 : stepThen (at' 0 [15, 32769, 3, 65535]) (fun t => t.reg 1) = some 32767 := by decide
/-- L5: the old register is the address. -/
theorem test_rmem_self : stepThen (at' 0 [15, 32768, 32768]) (fun t => t.reg 0) = some 15 := by decide
/-- L7. -/
theorem test_wmem : stepThen (withReg 0 30 (at' 0 [16, 100, 32768])) (fun t => (t.memRead 100, t.pc)) =
    some (30, 3) := by decide
/-- L9, two steps: the NOP stored at 3 is what runs next, not the HALT that stood there. -/
theorem test_wmem_code : ((next? (step (at' 0 [16, 3, 21, 0, 0]))).bind fun t => next? (step t)).map
    (fun t => (t.pc, t.status)) = some (4, .running) := by decide
/-- K1. -/
theorem test_call : stepThen (at' 0 [17, 6]) (fun t => (t.stack, t.pc)) = some ([2], 6) := by decide
/-- K4. -/
theorem test_call_top : stepThen (at' 32766 [17, 5]) (fun t => (faultOf t, t.stack)) =
    some ((some .instructionPointerOutOfRange, 32768, 32768, 32766), []) := by decide
/-- The example of R171. -/
theorem test_ret : stepThen (withStack [2] (at' 7 [18])) (fun t => (t.stack, t.pc)) = some ([], 2) := by decide
/-- S6. -/
theorem test_ret_empty : stepThen (at' 0 [18]) (fun t => (t.status, t.pc)) = some (.halted, 1) := by decide
/-- I1. -/
theorem test_out : stepThen (at' 0 [19, 328]) (fun t => (t.output, t.pc)) = some ([72], 2) := by decide
/-- I3. -/
theorem test_out_register : stepThen (withReg 0 32767 (at' 0 [19, 32768])) (fun t => t.output) = some [255] := by decide
/-- I5. -/
theorem test_in_newline : stepThen (withInput [.char 10, .char 97] (at' 0 [20, 32768]))
    (fun t => (t.reg 0, t.input, t.checkpoints.map fun c => (c.regs[0], c.pc, c.halted))) =
    some (10, [.char 97], [(10, 2, false)]) := by decide
/-- I6, and I7, where the character is not consumed. -/
theorem test_in_eof_and_invalid : stepThen (withReg 0 55 (withInput [.eof] (at' 0 [20, 32768])))
    (fun t => (t.reg 0, t.status, t.pc, t.checkpoints)) = some (55, .halted, 2, []) ∧
    stepThen (withInput [.char 97] (at' 0 [20, 5])) (fun t => (faultOf t, t.input)) =
    some ((some .invalidRegister, 5, 2, 0), [.char 97]) := by decide
/-- H1. -/
theorem test_halt : stepThen (at' 10 [0]) (fun t => (t.halted, t.pc)) = some (true, 11) := by decide
/-- F9: HALT in the last cell. -/
theorem test_halt_top : stepThen (at' 32767 [0]) (fun t => (t.status, t.pc)) = some (.halted, 32768) := by decide
/-- H2. -/
theorem test_nop : stepThen (at' 4 [21]) (fun t => (t.pc, t.status)) = some (5, .running) := by decide
/-- F8, its second step: the opcode fetch at 32768. -/
theorem test_fetch_past_end : stepThen (at' 32768 []) faultOf =
    some (some .instructionPointerOutOfRange, 32768, 32768, 32768) := by decide
/-- F11: `Reg` succeeded, the second operand fetch is out of range. -/
theorem test_operand_fetch_past_end : stepThen (at' 32766 [1, 32768]) faultOf =
    some (some .instructionPointerOutOfRange, 32768, 32768, 32766) := by decide
/-- F2: an opcode word is not resolved as a register. -/
theorem test_unknown_opcode : stepThen (at' 0 [32768]) faultOf = some (some .unknownOpcode, 32768, 1, 0) := by decide
/-- R56, P1: the image of "Hi" starts with OUT 72. -/
theorem test_load_image : (loadImage (some [0x13, 0x00, 0x48, 0x00, 0x00, 0x80])).toOption =
    some [(0, 19), (1, 72), (2, 32768)] := by decide

/-! ### Witnesses

Values at the ends of their ranges: the last addresses at which an instruction fits, the first at which one of its words
does not, a full and an empty stack, 0 and 32767. -/

/-- A state with nothing special about it: `pc` 100, R0 5, R1 0, R7 32767, two entries on the stack. -/
def mid : State := withReg 0 5 (withReg 7 32767 (withStack [3, 32767] (at' 100 [])))

/-- The last address at which an instruction of `n` words fits. -/
def last (n : Nat) : State := { mid with pc := BitVec.ofNat 16 (32768 - n) }

theorem witness_DecodeEncodeRoundTrip : (Instr.add (.register 7) (.literal 32767) (.invalid 32776)).wf = true := by decide
theorem witness_DecodedWordsEncodeBack :
    decode [15, 32775, 65535, 22] = .instr (.rmem (.register 7) (.invalid 65535)) [22] := by decide
theorem witness_OperandWordRanges :
    (32767 : StoredWord).toNat < 32768 ∧ (32768 : StoredWord).toNat = 32768 + (0 : RegIndex).val ∧
    (32775 : StoredWord).toNat = 32768 + (7 : RegIndex).val ∧ 32776 ≤ (32776 : StoredWord).toNat := by decide
theorem witness_OpcodeDispatch :
    ((at' 32767 [21]).status = .running ∧ (at' 32767 [21]).pc.toNat ≤ 32767 ∧
      ((at' 32767 [21]).memRead 32767).toNat < 22) ∧
    ((at' 32767 [22]).status = .running ∧ (at' 32767 [22]).pc.toNat ≤ 32767 ∧
      22 ≤ ((at' 32767 [22]).memRead 32767).toNat) := by decide
theorem witness_StepRunsTheDecodedInstruction :
    (at' 32764 [9, 32768, 1, 2]).status = .running ∧ (at' 32764 [9, 32768, 1, 2]).pc.toNat ≤ 32767 ∧
    decode [(at' 32764 [9, 32768, 1, 2]).memRead 32764, (at' 32764 [9, 32768, 1, 2]).memRead 32765,
      (at' 32764 [9, 32768, 1, 2]).memRead 32766, (at' 32764 [9, 32768, 1, 2]).memRead 32767] =
      .instr (.add (.register 0) (.literal 1) (.literal 2)) [] := by decide
theorem witness_StepReadsTheInstructionStream :
    instrAt (at' 0 [9, 32768, 1, 2]) = some (.add (.register 0) (.literal 1) (.literal 2)) ∧
    3 < (Instr.add (.register 0) (.literal 1) (.literal 2)).length := by decide
theorem witness_StepOnlyInRunningStatus :
    { mid with halted := true }.status = .halted ∧
    { mid with fault := { FaultRecord.empty with cause := some .stackUnderflow } }.status = .faulted ∧
    mid.status = .running := by decide
/-- Both sides of the conclusion: a step with an outcome, and an IN in the last two cells without an answer. -/
theorem witness_RunningStepCompletesOrAwaitsInput :
    (at' 0 [21]).status = .running ∧ next? (step (at' 0 [21])) ≠ none ∧
    (at' 32766 [20, 32768]).status = .running ∧ stop? (step (at' 32766 [20, 32768])) = some .awaitingInput := by decide
theorem witness_OpcodeFetchPastMemoryFaults :
    (at' 32768 []).status = .running ∧ 32767 < (at' 32768 []).pc.toNat := by decide
theorem witness_HaltMeaning : (last 1).pc.toNat ≤ 32767 ∧ (last 1).fault.cause = none := by decide
theorem witness_NopMeaning : (last 1).pc.toNat ≤ 32767 := by decide
theorem witness_SetMeaning :
    (mid.pc.toNat ≤ 32767 ∧ operandTrap mid (.set (.literal 5) (.literal 7)) =
      some { cause := .invalidRegister, info := 5, words := 2 }) ∧
    (last 3).Room 3 ∧ valueOf? (last 3) (.register 7) = some 32767 := by
  unfold State.Room; decide
theorem witness_PushMeaning :
    (mid.pc.toNat ≤ 32767 ∧ operandTrap mid (.push (.invalid 32776)) =
      some { cause := .invalidOperand, info := 32776, words := 2 }) ∧
    ((withCapacity ⟨3, by decide⟩ (last 2)).Room 2 ∧ valueOf? (withCapacity ⟨3, by decide⟩ (last 2)) (.literal 9) = some 9 ∧
      (withCapacity ⟨3, by decide⟩ (last 2)).stack.length ≠ (withCapacity ⟨3, by decide⟩ (last 2)).cfg.stackCapacity) ∧
    ((withCapacity ⟨2, by decide⟩ (last 2)).Room 2 ∧ valueOf? (withCapacity ⟨2, by decide⟩ (last 2)) (.literal 9) = some 9 ∧
      (withCapacity ⟨2, by decide⟩ (last 2)).stack.length = (withCapacity ⟨2, by decide⟩ (last 2)).cfg.stackCapacity) := by
  unfold State.Room; decide
theorem witness_PopMeaning :
    ((last 1).pc.toNat ≤ 32767 ∧ operandTrap (last 1) (.pop (.register 0)) =
      some { cause := .instructionPointerOutOfRange, info := 32768, words := 1 }) ∧
    ((last 2).Room 2 ∧ (last 2).stack = [3] ++ [32767]) ∧
    ((withStack [] (last 2)).Room 2 ∧ (withStack [] (last 2)).stack = []) := by
  unfold State.Room; decide
theorem witness_EqMeaning :
    (mid.pc.toNat ≤ 32767 ∧ operandTrap mid (.eq (.register 0) (.literal 7) (.invalid 65535)) =
      some { cause := .invalidOperand, info := 65535, words := 4 }) ∧
    (last 4).Room 4 ∧ valueOf? (last 4) (.register 7) = some 32767 ∧ valueOf? (last 4) (.literal 32767) = some 32767 := by
  unfold State.Room; decide
theorem witness_GtMeaning :
    ((last 2).pc.toNat ≤ 32767 ∧ operandTrap (last 2) (.gt (.register 0) (.literal 7) (.literal 7)) =
      some { cause := .instructionPointerOutOfRange, info := 32768, words := 2 }) ∧
    (last 4).Room 4 ∧ valueOf? (last 4) (.register 7) = some 32767 ∧ valueOf? (last 4) (.literal 0) = some 0 := by
  unfold State.Room; decide
theorem witness_JmpMeaning :
    (mid.pc.toNat ≤ 32767 ∧ operandTrap mid (.jmp (.invalid 32776)) =
      some { cause := .invalidOperand, info := 32776, words := 2 }) ∧
    (last 2).Room 2 ∧ valueOf? (last 2) (.register 7) = some 32767 := by
  unfold State.Room; decide
theorem witness_JtMeaning :
    (mid.pc.toNat ≤ 32767 ∧ operandTrap mid (.jt (.literal 0) (.invalid 40000)) =
      some { cause := .invalidOperand, info := 40000, words := 3 }) ∧
    (last 3).Room 3 ∧ valueOf? (last 3) (.register 1) = some 0 ∧ valueOf? (last 3) (.register 7) = some 32767 := by
  unfold State.Room; decide
theorem witness_JfMeaning :
    (mid.pc.toNat ≤ 32767 ∧ operandTrap mid (.jf (.literal 1) (.invalid 40000)) =
      some { cause := .invalidOperand, info := 40000, words := 3 }) ∧
    (last 3).Room 3 ∧ valueOf? (last 3) (.register 0) = some 5 ∧ valueOf? (last 3) (.literal 20) = some 20 := by
  unfold State.Room; decide
theorem witness_AddMeaning :
    (mid.pc.toNat ≤ 32767 ∧ operandTrap mid (.add (.literal 32767) (.literal 1) (.literal 2)) =
      some { cause := .invalidRegister, info := 32767, words := 2 }) ∧
    (last 4).Room 4 ∧ valueOf? (last 4) (.register 7) = some 32767 ∧ valueOf? (last 4) (.literal 1) = some 1 := by
  unfold State.Room; decide
theorem witness_MultMeaning :
    (mid.pc.toNat ≤ 32767 ∧ operandTrap mid (.mult (.register 0) (.invalid 32776) (.literal 2)) =
      some { cause := .invalidOperand, info := 32776, words := 3 }) ∧
    (last 4).Room 4 ∧ valueOf? (last 4) (.register 7) = some 32767 := by
  unfold State.Room; decide
/-- A divisor of 1 and a divisor of 0. -/
theorem witness_ModMeaning :
    (mid.pc.toNat ≤ 32767 ∧ operandTrap mid (.mod (.literal 5) (.literal 1) (.literal 0)) =
      some { cause := .invalidRegister, info := 5, words := 2 }) ∧
    (last 4).Room 4 ∧ valueOf? (last 4) (.register 7) = some 32767 ∧ valueOf? (last 4) (.literal 1) = some 1 ∧
    (1 : Word).toNat ≠ 0 ∧ valueOf? (last 4) (.register 1) = some 0 ∧ (0 : Word).toNat = 0 := by
  unfold State.Room; decide
theorem witness_AndMeaning :
    ((last 3).pc.toNat ≤ 32767 ∧ operandTrap (last 3) (.and (.register 0) (.literal 7) (.literal 7)) =
      some { cause := .instructionPointerOutOfRange, info := 32768, words := 3 }) ∧
    (last 4).Room 4 ∧ valueOf? (last 4) (.register 7) = some 32767 := by
  unfold State.Room; decide
theorem witness_OrMeaning :
    (mid.pc.toNat ≤ 32767 ∧ operandTrap mid (.or (.register 0) (.literal 7) (.invalid 32776)) =
      some { cause := .invalidOperand, info := 32776, words := 4 }) ∧
    (last 4).Room 4 ∧ valueOf? (last 4) (.register 7) = some 32767 := by
  unfold State.Room; decide
theorem witness_NotMeaning :
    (mid.pc.toNat ≤ 32767 ∧ operandTrap mid (.not (.invalid 32776) (.literal 7)) =
      some { cause := .invalidRegister, info := 32776, words := 2 }) ∧
    (last 3).Room 3 ∧ valueOf? (last 3) (.register 7) = some 32767 := by
  unfold State.Room; decide
theorem witness_RmemMeaning :
    (mid.pc.toNat ≤ 32767 ∧ operandTrap mid (.rmem (.register 0) (.invalid 40000)) =
      some { cause := .invalidOperand, info := 40000, words := 3 }) ∧
    (last 3).Room 3 ∧ valueOf? (last 3) (.register 7) = some 32767 := by
  unfold State.Room; decide
theorem witness_WmemMeaning :
    (mid.pc.toNat ≤ 32767 ∧ operandTrap mid (.wmem (.invalid 65535) (.literal 1)) =
      some { cause := .invalidOperand, info := 65535, words := 2 }) ∧
    (last 3).Room 3 ∧ valueOf? (last 3) (.register 7) = some 32767 ∧ valueOf? (last 3) (.literal 0) = some 0 ∧
    32766 ≠ (32767 : Word).toNat := by
  unfold State.Room; decide
/-- The return address 32768, a full stack at 32765, and room for one more entry there. -/
theorem witness_CallMeaning :
    (mid.pc.toNat ≤ 32767 ∧ operandTrap mid (.call (.invalid 32776)) =
      some { cause := .invalidOperand, info := 32776, words := 2 }) ∧
    ((last 2).Room 2 ∧ valueOf? (last 2) (.literal 5) = some 5 ∧ (last 2).pc.toNat + 2 = 32768) ∧
    ((withCapacity ⟨2, by decide⟩ (last 3)).Room 2 ∧ valueOf? (withCapacity ⟨2, by decide⟩ (last 3)) (.literal 5) = some 5 ∧
      (withCapacity ⟨2, by decide⟩ (last 3)).pc.toNat + 2 < 32768 ∧
      (withCapacity ⟨2, by decide⟩ (last 3)).stack.length = (withCapacity ⟨2, by decide⟩ (last 3)).cfg.stackCapacity) ∧
    ((withCapacity ⟨3, by decide⟩ (last 3)).Room 2 ∧ valueOf? (withCapacity ⟨3, by decide⟩ (last 3)) (.literal 5) = some 5 ∧
      (withCapacity ⟨3, by decide⟩ (last 3)).pc.toNat + 2 < 32768 ∧
      (withCapacity ⟨3, by decide⟩ (last 3)).stack.length ≠ (withCapacity ⟨3, by decide⟩ (last 3)).cfg.stackCapacity) := by
  unfold State.Room; decide
theorem witness_RetMeaning :
    (last 1).pc.toNat ≤ 32767 ∧ (last 1).stack = [3] ++ [32767] ∧ (withStack [] (last 1)).stack = [] ∧
    (withStack [] (last 1)).fault.cause = none := by decide
theorem witness_OutMeaning :
    ((last 1).pc.toNat ≤ 32767 ∧ operandTrap (last 1) (.out (.literal 72)) =
      some { cause := .instructionPointerOutOfRange, info := 32768, words := 1 }) ∧
    (last 2).Room 2 ∧ valueOf? (last 2) (.register 7) = some 32767 := by
  unfold State.Room; decide
/-- No answer, end of input, a newline, and a code that is none. -/
theorem witness_InMeaning :
    (mid.pc.toNat ≤ 32767 ∧ operandTrap mid (.input (.literal 5)) =
      some { cause := .invalidRegister, info := 5, words := 2 }) ∧
    (last 2).Room 2 ∧ (last 2).input = [] ∧ (withInput [.eof] (last 2)).input = .eof :: [] ∧
    (withInput [.char 10] (last 2)).input = .char 10 :: [] ∧ (withInput [.char 13] (last 2)).input = .char 13 :: [] ∧
    (13 : Nat) ≠ 10 := by
  unfold State.Room; decide

theorem witness_RegistersChangeOnlyAtDestination :
    exec (.set (.register 0) (.literal 9)) mid = .next (withReg 0 9 { mid with pc := 103 }) ∧
    destination (.set (.register 0) (.literal 9)) ≠ some 1 := ⟨rfl, by decide⟩
theorem witness_MemoryChangesOnlyAtStoreAddress :
    exec (.wmem (.literal 40) (.literal 7)) mid = .next { mid with pc := 103, mem := [(40, 7)] } ∧
    storeAddress mid (.wmem (.literal 40) (.literal 7)) ≠ some 41 := ⟨rfl, by decide⟩
theorem witness_StoredValuesAreWords :
    step (at' 0 [21, 32768]) = .next { at' 0 [21, 32768] with pc := 1 } ∧
    32768 ≤ ({ at' 0 [21, 32768] with pc := 1 }.memRead 1).toNat := ⟨rfl, by decide⟩
theorem witness_StackChangesOnlyByPushAndPop :
    exec (.push (.literal 9)) mid = .next { mid with pc := 102, stack := [3, 32767, 9] } ∧
    exec .ret mid = .next { mid with pc := 32767, stack := [3] } := ⟨rfl, rfl⟩
theorem witness_HaltedSetOnlyByNormalEnds :
    exec .halt mid = .next { mid with pc := 101, halted := true } := rfl
theorem witness_FaultsArePrecise :
    step (at' 0 [22]) = .next { at' 0 [22] with pc := 1, fault :=
      { cause := some .unknownOpcode, info := 22, faultPc := 1, instrAddr := 0 } } ∧
    ({ cause := some .unknownOpcode, info := 22, faultPc := 1, instrAddr := 0 } : FaultRecord) ≠ (at' 0 [22]).fault :=
  ⟨rfl, by decide⟩
theorem witness_ChannelsChangeOnlyByInAndOut :
    exec (.out (.literal 328)) mid = .next { mid with pc := 102, output := [72] } ∧
    exec (.input (.register 0)) (withInput [.char 97] mid) = .next (withReg 0 97 { mid with pc := 102 }) := ⟨rfl, rfl⟩
theorem witness_PcAdvancesOrIsATarget :
    mid.fault.cause = none ∧ exec .nop mid = .next { mid with pc := 101 } ∧
    exec (.jmp (.register 7)) mid = .next { mid with pc := 32767 } := ⟨rfl, rfl, rfl⟩
theorem witness_StartMeetsInvariant :
    start Config.default (some [21, 0]) none [⟨.eof, rfl⟩] = .ok { at' 0 [21] with input := [.eof] } ∧
    start Config.default (some []) (some (at' 32768 []).snapshot) [] = .ok (at' 32768 []) := ⟨rfl, rfl⟩

/-- A full stack, `pc` at the last cell, a NOP there. -/
def edge : State := withCapacity ⟨2, by decide⟩ (withStack [3, 32767] (at' 32767 [21]))

theorem witness_StepKeepsInvariant : edge.Inv ∧ step edge = .next { edge with pc := 32768 } :=
  ⟨⟨by decide, by decide, by decide, ⟨by decide, by decide, by decide⟩, (fun _ h => nomatch h), (fun _ h => nomatch h)⟩, rfl⟩
/-- The largest code of 8 bits is carried, the next one is not, and an answer joins a state that meets the invariant. -/
theorem witness_OfferedAnswersKeepInvariant :
    edge.Inv ∧ offerInput (.char 255) edge = some (withInput [.char 255] edge) ∧ (255 : Nat) < 2 ^ edge.cfg.inWidth ∧
    offerInput (.char 256) edge = none ∧ offerInput .eof edge = some (withInput [.eof] edge) :=
  ⟨witness_StepKeepsInvariant.1, rfl, by decide, rfl, rfl⟩
theorem witness_DeadChecksNeverFire :
    step (at' 0 [6, 32776]) = .next { at' 0 [6, 32776] with pc := 2, fault :=
      { cause := some .invalidOperand, info := 32776, faultPc := 2, instrAddr := 0 } } := rfl

/-- An IN that takes a newline, and the state it leaves but for the request. -/
def newline : State := withInput [.char 10] (at' 0 [20, 32768])

theorem witness_CheckpointRestoresTheMachine :
    newline.Inv ∧ step newline = .next { withReg 0 10 (at' 0 [20, 32768]) with
      pc := 2, checkpoints := [(withReg 0 10 { at' 0 [20, 32768] with pc := 2 }).snapshot] } ∧
    [(withReg 0 10 { at' 0 [20, 32768] with pc := 2 }).snapshot] ≠ newline.checkpoints ∧ mid.cfg = newline.cfg :=
  ⟨⟨by decide, by decide, by decide, ⟨by decide, by decide, by decide⟩, (fun _ h => nomatch h),
    by unfold State.InputOk; decide⟩, rfl, by decide, rfl⟩
theorem witness_CheckpointsDoNotAffectTheRun :
    step (at' 0 [21]) = .next { at' 0 [21] with pc := 1 } ∧ step (at' 0 [20, 32768]) = .fault .awaitingInput := ⟨rfl, rfl⟩
theorem witness_ReturnResumesAfterCall :
    mid.fault.cause = none ∧ exec (.call (.literal 6)) mid = .next { mid with pc := 6, stack := [3, 32767, 102] } ∧
    (withStack [3, 32767, 102] (last 1)).stack = [3, 32767, 102] ∧
    (withStack [3, 32767, 102] (last 1)).pc.toNat ≤ 32767 := ⟨rfl, rfl, rfl, by decide⟩
theorem witness_PopUndoesPush :
    mid.fault.cause = none ∧ valueOf? mid (.register 7) = some 32767 ∧
    exec (.push (.register 7)) mid = .next { mid with pc := 102, stack := [3, 32767, 32767] } ∧
    (withStack [3, 32767, 32767] (last 2)).stack = [3, 32767, 32767] ∧
    (withStack [3, 32767, 32767] (last 2)).Room 2 := ⟨rfl, rfl, rfl, rfl, by unfold State.Room; decide⟩
/-- A store to the last cell, then the state that loads it and the state that fetches it. -/
theorem witness_StoreIsSeenByLoadAndFetch :
    mid.fault.cause = none ∧ valueOf? mid (.register 7) = some 32767 ∧ valueOf? mid (.literal 21) = some 21 ∧
    exec (.wmem (.register 7) (.literal 21)) mid = .next { mid with pc := 103, mem := [(32767, 21)] } ∧
    (at' 32767 [21]).mem = [(32767, 21)] ∧ (at' 32767 [21]).pc.toNat = (32767 : Word).toNat ∧
    { at' 32767 [21] with pc := 0 }.Room 3 ∧ valueOf? (at' 32767 [21]) (.literal 32767) = some 32767 :=
  ⟨rfl, rfl, rfl, rfl, rfl, rfl, by unfold State.Room; decide, rfl⟩
theorem witness_LoadedImageIsLittleEndian :
    loadImage (some [0x01, 0x80, 0x09, 0x00]) = .ok [(0, 32769), (1, 9)] ∧ 1 < [1, 128, 9, 0].length / 2 ∧
    [1, 128, 9, 0].length / 2 ≤ 2 := ⟨rfl, by decide, by decide⟩
/-- One byte, 65538 bytes and 65536 bytes. -/
theorem witness_LoadRefusesExactlyBadImages :
    ([9] : List Byte).length % 2 = 1 ∧
    ((List.replicate 65538 (0 : Byte)).length % 2 = 0 ∧ 65536 < (List.replicate 65538 (0 : Byte)).length) ∧
    ((List.replicate 65536 (0 : Byte)).length % 2 = 0 ∧ (List.replicate 65536 (0 : Byte)).length ≤ 65536) := by
  simp only [List.length_replicate]; decide
theorem witness_StartedMachineHoldsTheImage :
    loadImage (some [0x09, 0x00]) = .ok [(0, 9)] ∧ (32767 : Nat) ≤ 32767 := ⟨rfl, by decide⟩
theorem witness_StatusAndExitStatus :
    ({ mid with halted := true, fault := { FaultRecord.empty with cause := some .unknownOpcode } }.fault.cause ≠ none) ∧
    (mid.fault.cause = none ∧ { mid with halted := true }.halted = true) ∧ mid.halted = false := by decide

end Sys2Proof.Tests
end

section
/-! SUPPORT. The shape of an instruction that completes, in a form that frames and invariants read by cases (`10_state.md`
R22 to R34), and what a step of a running machine can do in those terms. -/

namespace Sys2Proof.Machine

/-- R25: the five control transfers. -/
def IsTransfer (i : Instr) : Prop :=
  (∃ a, i = .jmp a) ∨ (∃ a b, i = .jt a b) ∨ (∃ a b, i = .jf a b) ∨ (∃ a, i = .call a) ∨ i = .ret

/-- `pc` past the words of an instruction whose opcode word stands at `pc` (R25). -/
def State.past (s : State) (i : Instr) : State := s.setPc (s.pc + BitVec.ofNat 16 i.length)

/-- The effects of `Effect`, those of one kind taken together and the newline told from the other characters. -/
inductive Completes (s : State) : Instr → State → Prop where
  /-- NOP, and JT and JF when the jump is not taken. -/
  | advances {i : Instr} (h : i = .nop ∨ (∃ a b, i = .jt a b) ∨ ∃ a b, i = .jf a b) : Completes s i (s.past i)
  | writes {i : Instr} (d : RegIndex) (v : Word) (h : destination i = some d) :
      Completes s i ((s.past i).setReg d v)
  | halts {i : Instr} (h : i = .halt ∨ (i = .ret ∧ s.stack = [])) : Completes s i (s.past i).setHalted
  | jumps {i : Instr} (target : Word) (h : IsTransfer i) : Completes s i (s.setPc (target.setWidth 16))
  | push (a : Operand) (v : Word) (hv : valueOf? s a = some v) (h : s.stack.length ≠ s.cfg.stackCapacity) :
      Completes s (.push a) ((s.past (.push a)).setStack (s.stack ++ [v]))
  | pop (d : RegIndex) (v : Word) (st : List Word) (h : s.stack = st ++ [v]) :
      Completes s (.pop (.register d)) (((s.past (.pop (.register d))).setStack st).setReg d v)
  | wmem (a b : Operand) (e v : Word) (h : valueOf? s a = some e) :
      Completes s (.wmem a b) ((s.past (.wmem a b)).memWrite e.toNat (v.setWidth 16))
  | call (a : Operand) (back target : Word) (hb : back.toNat = s.pc.toNat + 2)
      (h : s.stack.length ≠ s.cfg.stackCapacity) :
      Completes s (.call a) ((s.setStack (s.stack ++ [back])).setPc (target.setWidth 16))
  | ret (st : List Word) (target : Word) (h : s.stack = st ++ [target]) :
      Completes s .ret ((s.setStack st).setPc (target.setWidth 16))
  | out (a : Operand) (c : Byte) : Completes s (.out a) ((s.past (.out a)).emit c)
  | eof (a : Operand) (rest : List InputAnswer) (h : s.input = .eof :: rest) :
      Completes s (.input a) ((s.past (.input a)).setInput rest).setHalted
  | char (d : RegIndex) (code : Nat) (rest : List InputAnswer) (hne : code ≠ 10) (h : s.input = .char code :: rest) :
      Completes s (.input (.register d))
        (((s.past (.input (.register d))).setInput rest).setReg d (BitVec.ofNat 15 (code % 32768)))
  | newline (d : RegIndex) (rest : List InputAnswer) (h : s.input = .char 10 :: rest) :
      Completes s (.input (.register d)) (((s.past (.input (.register d))).setInput rest).setReg d 10).checkpoint

/-- Every effect is one of these. -/
theorem Effect.completes {s t : State} {i : Instr} (h : Effect s t i) : Completes s i t := by
  cases i
  case halt => cases h; exact .halts (.inl rfl)
  case nop => cases h; exact .advances (.inl rfl)
  case set | not | rmem | eq | gt | add | mult | mod | and | or =>
    obtain ⟨d, v, rfl, rfl⟩ := h
    exact .writes d v rfl
  case push a =>
    obtain ⟨v, hv, hs, rfl⟩ := h
    exact .push a v hv hs
  case pop =>
    obtain ⟨d, v, st, rfl, hs, rfl⟩ := h
    exact .pop d v st hs
  case jmp a =>
    obtain ⟨target, rfl⟩ := h
    exact .jumps target (.inl ⟨a, rfl⟩)
  case jt a b =>
    obtain rfl | ⟨target, rfl⟩ := h
    · exact .advances (.inr (.inl ⟨a, b, rfl⟩))
    · exact .jumps target (.inr (.inl ⟨a, b, rfl⟩))
  case jf a b =>
    obtain rfl | ⟨target, rfl⟩ := h
    · exact .advances (.inr (.inr ⟨a, b, rfl⟩))
    · exact .jumps target (.inr (.inr (.inl ⟨a, b, rfl⟩)))
  case wmem a b =>
    obtain ⟨e, v, he, rfl⟩ := h
    exact .wmem a b e v he
  case call a =>
    obtain ⟨back, target, hb, hs, rfl⟩ := h
    exact .call a back target hb hs
  case ret =>
    obtain ⟨hs, rfl⟩ | ⟨st, target, hs, rfl⟩ := h
    · exact .halts (.inr ⟨rfl, hs⟩)
    · exact .ret st target hs
  case out a =>
    obtain ⟨c, rfl⟩ := h
    exact .out a c
  case input =>
    obtain ⟨d, rest, rfl, ⟨hin, rfl⟩ | ⟨code, hin, rfl⟩⟩ := h
    · exact .eof _ rest hin
    · obtain ⟨rfl, ht⟩ | ⟨hne, ht⟩ := acceptChar_cases d code ((s.setPc (s.pc + 2)).setInput rest)
      · rw [ht]; exact .newline d rest hin
      · rw [ht]; exact .char d code rest hne hin

/-- An instruction that answers a next state takes a fault, or all its words are in memory and it completes. -/
theorem exec_next {i : Instr} {s t : State} (h : exec i s = .next t) :
    (∃ tr, t = s.trapped tr ∧ tr.Ok s i.wf) ∨ (s.Room i.length ∧ Completes s i t) := by
  obtain ⟨tr, he, hok⟩ | ⟨t', he, hroom, heff⟩ | ⟨-, -, -, he⟩ := exec_cases i s
  · cases he.symm.trans h
    exact .inl ⟨tr, rfl, hok⟩
  · cases he.symm.trans h
    exact .inr ⟨hroom, heff.completes⟩
  · cases he.symm.trans h

end Sys2Proof.Machine
end

section
/-! The frames of the machine state: registers, stack, halted flag, instruction pointer (`10_state.md` R22 to R32). -/

namespace Sys2Proof.Machine

theorem Completes.reg_eq {i : Instr} {s t : State} {r : RegIndex} (h : Completes s i t) (hr : destination i ≠ some r) :
    t.reg r = s.reg r := by
  have ne_of_dest {d : RegIndex} (hd : destination i = some d) : r ≠ d := fun e => hr (e ▸ hd)
  cases h with
  | writes d v hd => exact State.setReg_reg_ne _ d r v (ne_of_dest hd)
  | pop d v => exact State.setReg_reg_ne _ d r v (ne_of_dest rfl)
  | char d code => exact State.setReg_reg_ne _ d r _ (ne_of_dest rfl)
  | newline d => exact State.setReg_reg_ne _ d r 10 (ne_of_dest rfl)
  | _ => rfl

/-- Settles O35: a fault writes no register, and each effect that writes one writes the destination. -/
theorem registersChangeOnlyAtDestination : Obligations.RegistersChangeOnlyAtDestination := by
  intro i s t r h hr
  obtain ⟨tr, rfl, -⟩ | ⟨-, hc⟩ := exec_next h
  · exact State.trapped_reg s tr r
  · exact hc.reg_eq hr

/-- Settles O38, by cases on the effect. -/
theorem stackChangesOnlyByPushAndPop : Obligations.StackChangesOnlyByPushAndPop := by
  intro i s t h
  obtain ⟨tr, rfl, -⟩ | ⟨-, hc⟩ := exec_next h
  · exact .inl (State.trapped_stack s tr)
  · cases hc with
    | push a v => exact .inr (.inl ⟨.inl ⟨a, rfl⟩, v, rfl⟩)
    | call a back => exact .inr (.inl ⟨.inr ⟨a, rfl⟩, back, rfl⟩)
    | pop d v st hs => exact .inr (.inr ⟨.inl ⟨_, rfl⟩, v, hs⟩)
    | ret st target hs => exact .inr (.inr ⟨.inr rfl, target, hs⟩)
    | _ => exact .inl rfl

/-- Settles O39, by cases on the effect. -/
theorem haltedSetOnlyByNormalEnds : Obligations.HaltedSetOnlyByNormalEnds := by
  intro i s t h
  obtain ⟨tr, rfl, -⟩ | ⟨-, hc⟩ := exec_next h
  · exact .inl (State.trapped_halted s tr)
  · cases hc with
    | halts hi => exact .inr ⟨rfl, hi.imp_right .inl⟩
    | eof a rest hin => exact .inr ⟨rfl, .inr (.inr ⟨a, rfl, congrArg List.head? hin⟩)⟩
    | _ => exact .inl rfl

theorem Completes.pc_cases {i : Instr} {s t : State} (h : Completes s i t) :
    t.pc = s.pc + BitVec.ofNat 16 i.length ∨ (IsTransfer i ∧ ∃ target : Word, t.pc = BitVec.ofNat 16 target.toNat) := by
  cases h with
  | jumps target hi => exact .inr ⟨hi, target, (BitVec.ofNat_toNat 16 target).symm⟩
  | call a back target => exact .inr ⟨.inr (.inr (.inr (.inl ⟨a, rfl⟩))), target, (BitVec.ofNat_toNat 16 target).symm⟩
  | ret st target => exact .inr ⟨.inr (.inr (.inr (.inr rfl))), target, (BitVec.ofNat_toNat 16 target).symm⟩
  | _ => exact .inl rfl

/-- Settles O42: without a fault the instruction has completed. -/
theorem pcAdvancesOrIsATarget : Obligations.PcAdvancesOrIsATarget := by
  intro i s t _ h hfault
  obtain ⟨tr, rfl, -⟩ | ⟨-, hc⟩ := exec_next h
  · cases hfault
  · exact hc.pc_cases

end Sys2Proof.Machine
end

section
/-! The status and the invariant (`10_state.md` R27, R30, R34; `60_exceptions.md` R210, R216). -/

namespace Sys2Proof.Machine

theorem State.status_eq_faulted {s : State} (h : s.fault.cause ≠ none) : s.status = .faulted := by
  rw [State.status, if_pos (Option.isSome_iff_ne_none.2 h)]

theorem State.status_of_noFault {s : State} (h : s.fault.cause = none) :
    s.status = if s.halted then .halted else .running := by
  rw [State.status, h]
  rfl

theorem State.status_eq_running_iff {s : State} :
    s.status = .running ↔ s.fault.cause = none ∧ s.halted = false := by
  by_cases hf : s.fault.cause = none
  · rw [State.status_of_noFault hf]
    cases s.halted <;> simp [hf]
  · simp [State.status_eq_faulted hf, hf]

/-- Settles O56: the exit status is a function of the status. -/
theorem statusAndExitStatus : Obligations.StatusAndExitStatus := by
  intro s
  refine ⟨fun hf => ?_, fun hf hh => ?_, fun hf hh => ?_⟩
  · have hs := State.status_eq_faulted hf
    exact ⟨hs, by rw [State.exitStatus, hs]⟩
  · have hs : s.status = .halted := by rw [State.status_of_noFault hf, if_pos hh]
    exact ⟨hs, by rw [State.exitStatus, hs]⟩
  · have hs := State.status_eq_running_iff.2 ⟨hf, hh⟩
    exact ⟨hs, by rw [State.exitStatus, hs]⟩

theorem State.resetWith_inv (cfg : Config) : (State.resetWith cfg).Inv :=
  ⟨reset_mem_wf cfg, Nat.zero_le _, Nat.zero_le _, ⟨rfl, fun h => absurd rfl h, fun _ => rfl⟩, nofun, nofun⟩

/-- Settles O43: the values of R46 meet each component. -/
theorem resetMeetsInvariant : Obligations.ResetMeetsInvariant :=
  ⟨State.resetWith_inv Config.default, State.resetWith_inv⟩

theorem InputAnswer.valid_iff (cfg : Config) (a : InputAnswer) :
    a.valid cfg = true ↔ a = .eof ∨ ∃ c, a = .char c ∧ c < 2 ^ cfg.inWidth := by
  cases a <;> simp [InputAnswer.valid]

theorem offerInput_eq_some_iff {a : InputAnswer} {s t : State} :
    offerInput a s = some t ↔ a.valid s.cfg = true ∧ t = s.setInput (s.input ++ [a]) := by
  rw [offerInput, Option.ite_none_right_eq_some, Option.some_inj, eq_comm (a := t)]

theorem State.Inv.setInput_append {s : State} {a : InputAnswer} (h : s.Inv) (ha : a.valid s.cfg = true) :
    (s.setInput (s.input ++ [a])).Inv := by
  obtain ⟨hmem, hpc, hstack, hfault, hcp, hin⟩ := h
  refine ⟨hmem, hpc, hstack, hfault, hcp, fun b hb => ?_⟩
  obtain hb | hb := List.mem_append.1 hb
  · exact hin b hb
  · exact List.mem_singleton.1 hb ▸ ha

/-- Settles O58, from what `offerInput` accepts and what it then leaves. -/
theorem offeredAnswersKeepInvariant : Obligations.OfferedAnswersKeepInvariant := by
  intro a s
  simp only [offerInput_eq_some_iff]
  refine ⟨?_, ?_⟩
  · rw [exists_and_left, InputAnswer.valid_iff]
    exact and_iff_left ⟨_, rfl⟩
  · rintro t ⟨ha, rfl⟩
    exact ⟨rfl, fun h => h.setInput_append ha⟩

/-! ### Each component of the invariant across an instruction that completes -/

section Completed
variable {i : Instr} {s t : State} (h : Completes s i t)
include h

theorem Completes.cfg_eq : t.cfg = s.cfg := by
  cases h <;> rfl

theorem Completes.fault_eq : t.fault = s.fault := by
  cases h <;> rfl

theorem Completes.mem_wf (hwf : s.mem.wf = true) : t.mem.wf = true := by
  cases h with
  | wmem a b e v => exact Memory.wf_write e.toNat (v.setWidth 16) hwf
  | _ => exact hwf

/-- R27: past the instruction `pc` is at most 32768, and a target is a Word. -/
theorem Completes.pc_le (hroom : s.Room i.length) : t.pc.toNat ≤ 32768 := by
  obtain hpc | ⟨-, target, hpc⟩ := h.pc_cases
  · rw [hpc, cursor_toNat s _ hroom]
    exact hroom
  · rw [hpc, BitVec.toNat_ofNat]
    omega

/-- R30: an entry is added only where the stack is not full. -/
theorem Completes.stack_le (hle : s.stack.length ≤ s.cfg.stackCapacity) : t.stack.length ≤ t.cfg.stackCapacity := by
  have pushed (v : Word) (hne : s.stack.length ≠ s.cfg.stackCapacity) :
      (s.stack ++ [v]).length ≤ s.cfg.stackCapacity := by
    rw [List.length_append]
    exact Nat.lt_of_le_of_ne hle hne
  have popped {st : List Word} {v : Word} (hs : s.stack = st ++ [v]) : st.length ≤ s.cfg.stackCapacity := by
    rw [hs, List.length_append] at hle
    exact Nat.le_of_succ_le hle
  cases h with
  | push a v hv hne => exact pushed v hne
  | call a back target hb hne => exact pushed back hne
  | pop d v st hs => exact popped hs
  | ret st target hs => exact popped hs
  | _ => exact hle

/-- R188: a checkpoint is requested by an IN that takes a newline, and carries the state the IN leaves. -/
theorem Completes.checkpoints_cases :
    t.checkpoints = s.checkpoints ∨ (t.checkpoints = s.checkpoints ++ [t.snapshot] ∧ t.halted = s.halted) := by
  cases h with
  | newline => exact .inr ⟨rfl, rfl⟩
  | _ => exact .inl rfl

theorem Completes.input_suffix : t.input <:+ s.input := by
  have taken {ans : InputAnswer} {rest : List InputAnswer} (hin : s.input = ans :: rest) : rest <:+ s.input :=
    hin ▸ List.suffix_cons ans rest
  cases h with
  | eof a rest hin => exact taken hin
  | char d code rest hne hin => exact taken hin
  | newline d rest hin => exact taken hin
  | _ => exact List.suffix_rfl

end Completed

/-- R247: what the engine sends is valid where the state it is taken from meets the bounds. -/
theorem State.snapshot_valid {t : State} (hmem : t.mem.wf = true) (hstack : t.stack.length ≤ t.cfg.stackCapacity)
    (hpc : t.pc.toNat ≤ 32768) : t.snapshot.valid t.cfg = true := by
  simp only [Snapshot.valid, Bool.and_eq_true, decide_eq_true_eq]
  exact ⟨⟨hmem, hstack⟩, hpc⟩

/-- A running machine that takes a fault: the record fits, and the flag was clear. -/
theorem State.Inv.trapped {s : State} {tr : Trap} (h : s.Inv) (hrun : s.status = .running) (htr : tr.Ok s true) :
    (s.trapped tr).Inv := by
  obtain ⟨hmem, hpc, hstack, -, hcp, hin⟩ := h
  obtain ⟨-, -, hok⟩ := htr
  obtain ⟨hfits, hcursor⟩ := hok rfl hpc
  obtain ⟨-, hhalted⟩ := State.status_eq_running_iff.1 hrun
  refine ⟨hmem, ?_, hstack, ⟨hfits, fun _ => ⟨rfl, hhalted⟩, nofun⟩, hcp, hin⟩
  rw [State.trapped_pc, cursor_toNat s _ hcursor]
  exact hcursor

/-- A running machine whose instruction completes: the fault record stays empty, so the flag may be set. -/
theorem State.Inv.completes {s t : State} {i : Instr} (h : s.Inv) (hrun : s.status = .running)
    (hroom : s.Room i.length) (hc : Completes s i t) : t.Inv := by
  obtain ⟨hmem, -, hstack, ⟨hfits, -, hempty⟩, hcp, hin⟩ := h
  obtain ⟨hcause, hhalted⟩ := State.status_eq_running_iff.1 hrun
  have hmem' := hc.mem_wf hmem
  have hpc' := hc.pc_le hroom
  have hstack' := hc.stack_le hstack
  have hfault' : t.FaultOk := by
    rw [State.FaultOk, hc.fault_eq]
    exact ⟨hfits, fun hne => absurd hcause hne, hempty⟩
  have hsent : ∀ c ∈ s.checkpoints, c.valid t.cfg = true ∧ c.halted = false := by
    rw [hc.cfg_eq]
    exact hcp
  have hcp' : t.CheckpointsOk := by
    intro c hmemc
    obtain heq | ⟨heq, hsame⟩ := hc.checkpoints_cases
    · exact hsent c (heq ▸ hmemc)
    · obtain hold | hnew := List.mem_append.1 (heq ▸ hmemc)
      · exact hsent c hold
      · obtain rfl := List.mem_singleton.1 hnew
        exact ⟨State.snapshot_valid hmem' hstack' hpc', hsame.trans hhalted⟩
  have hin' : t.InputOk := by
    intro a ha
    rw [hc.cfg_eq]
    exact hin a (hc.input_suffix.subset ha)
  exact ⟨hmem', hpc', hstack', hfault', hcp', hin'⟩

/-- Settles O45: a step faults, or runs an instruction to its end. -/
theorem stepKeepsInvariant : Obligations.StepKeepsInvariant := by
  intro s t h hstep
  obtain ⟨hrun, ⟨tr, rfl, htr⟩ | ⟨i, -, hroom, heff⟩⟩ := step_next hstep
  · exact h.trapped hrun htr
  · exact h.completes hrun hroom heff.completes

end Sys2Proof.Machine
end

section
/-! SUPPORT. The host's channels do not steer a step (`10_state.md` R47, `40_step_and_operands.md` R112). `f.record` puts the
channels of `f` around a state; each operation, operand format and instruction commutes with that, the IN under the
proviso that it asks for no answer beyond those the state itself holds. -/

namespace Sys2Proof.Machine

/-- What a primitive answers, its state taken through a function. -/
def Res.mapState {α : Type} (r : Res α) (g : State → State) : Res α :=
  match r with
  | .ok a s => .ok a (g s)
  | .raised s => .raised (g s)

theorem Res.bind_mapState {α β : Type} {g : State → State} {r : Res α} {k k' : α → State → Res β}
    (h : ∀ a t, k' a (g t) = (k a t).mapState g) : (r.mapState g).bind k' = (r.bind k).mapState g := by
  cases r with
  | ok a t => exact h a t
  | raised t => rfl

/-- An instruction commutes with `g` when its operands do and, on the states they answer, its continuation does. -/
theorem Res.andThen_mapState {α : Type} {g : State → State} {r r' : Res α} {k k' : α → State → Result}
    (hr : r' = r.mapState g) (hk : ∀ a t, r = .ok a t → k' a (g t) = Result.mapNext (k a t) g) :
    r'.andThen k' = Result.mapNext (r.andThen k) g := by
  subst hr
  cases r with
  | ok a t => exact hk a t rfl
  | raised t => rfl

/-- Resolving a register operand takes no answer. -/
theorem operandsR_input {a : Operand} {s t : State} {d : RegIndex} (h : operandsR a s = .ok d t) : t.input = s.input := by
  by_cases hp : s.pc.toNat ≤ 32767
  · obtain ⟨tr, -, he⟩ | ⟨d', -, -, -, he⟩ := operandsR_cases s a hp
    · cases he.symm.trans h
    · cases he.symm.trans h
      rfl
  · cases (operandsR_outOfRange s a (Nat.lt_of_not_le hp)).symm.trans h

section Record
variable (f : State)

/-! ### The shared operations -/

theorem State.record_emit (t : State) (c : Byte) : (f.record t).emit c = f.record (t.emit c) := by
  simp [State.emit, State.record]

theorem State.record_checkpoint (t : State) : (f.record t).checkpoint = f.record t.checkpoint := by
  simp [State.checkpoint, State.record, State.snapshot]

theorem fetch_record (ia : StoredWord) (t : State) : fetch ia (f.record t) = (fetch ia t).mapState f.record := by
  rw [fetch, fetch, apply_ite (Res.mapState · f.record)]
  rfl

theorem jumpTo_record (ia target : StoredWord) (t : State) :
    jumpTo ia target (f.record t) = (jumpTo ia target t).mapState f.record := by
  rw [jumpTo, jumpTo, apply_ite (Res.mapState · f.record)]
  rfl

theorem checkAddr_record (ia e : StoredWord) (t : State) :
    checkAddr ia e (f.record t) = (checkAddr ia e t).mapState f.record := by
  rw [checkAddr, checkAddr, apply_ite (Res.mapState · f.record)]
  rfl

theorem push_record (ia : StoredWord) (v : Word) (t : State) :
    push ia v (f.record t) = (push ia v t).mapState f.record := by
  rw [push, push, apply_ite (Res.mapState · f.record)]
  rfl

theorem returnAddress_record (ia : StoredWord) (t : State) :
    returnAddress ia (f.record t) = (returnAddress ia t).mapState f.record := by
  rw [returnAddress, returnAddress, apply_ite (Res.mapState · f.record)]
  rfl

theorem pop_record (t : State) : pop (f.record t) = (pop t).map (Prod.map id f.record) := by
  simp only [pop, State.record_toMachineState]
  cases t.stack.getLast? <;> rfl

theorem jumpIf_record (cond : Bool) (ia : StoredWord) (target : Word) (t : State) :
    jumpIf cond ia target (f.record t) = Result.mapNext (jumpIf cond ia target t) f.record := by
  rw [jumpIf_cases, jumpIf_cases]
  cases cond <;> rfl

theorem acceptChar_record (d : RegIndex) (code : Nat) (t : State) :
    acceptChar d code (f.record t) = f.record (acceptChar d code t) := by
  by_cases h : code = 10
  · simp only [acceptChar, if_pos h]
    exact State.record_checkpoint f (t.setReg d _)
  · simp only [acceptChar, if_neg h]
    rfl

/-! ### The operand formats -/

theorem val_record (ia : StoredWord) (o : Operand) (t : State) : val ia o (f.record t) = (val ia o t).mapState f.record := by
  cases o <;> rfl

theorem reg_record (ia : StoredWord) (o : Operand) (t : State) : reg ia o (f.record t) = (reg ia o t).mapState f.record := by
  cases o <;> rfl

theorem fetchVal_record (ia : StoredWord) (o : Operand) (t : State) :
    fetchVal ia o (f.record t) = (fetchVal ia o t).mapState f.record := by
  rw [fetchVal, fetch_record]
  exact Res.bind_mapState fun _ t => val_record f ia o t

theorem fetchReg_record (ia : StoredWord) (o : Operand) (t : State) :
    fetchReg ia o (f.record t) = (fetchReg ia o t).mapState f.record := by
  rw [fetchReg, fetch_record]
  exact Res.bind_mapState fun _ t => reg_record f ia o t

theorem operandsZ_record (t : State) : operandsZ (f.record t) = (operandsZ t).mapState f.record := by
  rw [operandsZ, fetch_record]
  exact Res.bind_mapState fun _ _ => rfl

theorem operandsR_record (a : Operand) (t : State) : operandsR a (f.record t) = (operandsR a t).mapState f.record := by
  rw [operandsR, operandsZ_record]
  exact Res.bind_mapState fun _ u => fetchReg_record f t.pc a u

theorem operandsV_record (a : Operand) (t : State) : operandsV a (f.record t) = (operandsV a t).mapState f.record := by
  rw [operandsV, operandsZ_record]
  exact Res.bind_mapState fun _ u => fetchVal_record f t.pc a u

/-- A further value operand after a format that commutes. -/
theorem bind_fetchVal_record {α β : Type} (pair : α → Word → β) (ia : StoredWord) (o : Operand) (r : Res α) :
    ((r.mapState f.record).bind fun a t => (fetchVal ia o t).bind fun v t => .ok (pair a v) t) =
      (r.bind fun a t => (fetchVal ia o t).bind fun v t => .ok (pair a v) t).mapState f.record :=
  Res.bind_mapState fun a t => by
    rw [fetchVal_record]
    exact Res.bind_mapState fun _ _ => rfl

theorem operandsRV_record (a b : Operand) (t : State) :
    operandsRV a b (f.record t) = (operandsRV a b t).mapState f.record := by
  rw [operandsRV, operandsR_record]
  exact bind_fetchVal_record f Prod.mk t.pc b _

theorem operandsVV_record (a b : Operand) (t : State) :
    operandsVV a b (f.record t) = (operandsVV a b t).mapState f.record := by
  rw [operandsVV, operandsV_record]
  exact bind_fetchVal_record f Prod.mk t.pc b _

theorem operandsRVV_record (a b c : Operand) (t : State) :
    operandsRVV a b c (f.record t) = (operandsRVV a b c t).mapState f.record := by
  rw [operandsRVV, operandsRV_record]
  exact bind_fetchVal_record f (fun (p : RegIndex × Word) w => (p.1, p.2, w)) t.pc c _

/-! ### The instructions and the step -/

theorem execMod_record (a b c : Operand) (t : State) :
    execMod a b c (f.record t) = Result.mapNext (execMod a b c t) f.record := by
  refine Res.andThen_mapState (operandsRVV_record f a b c t) fun p u _ => ?_
  by_cases hz : p.2.2 = 0
  · simp only [if_pos hz]
    rfl
  · simp only [if_neg hz]
    rfl

theorem execPop_record (a : Operand) (t : State) : execPop a (f.record t) = Result.mapNext (execPop a t) f.record := by
  refine Res.andThen_mapState (operandsR_record f a t) fun d u _ => ?_
  rw [pop_record]
  cases pop u <;> rfl

theorem execCall_record (a : Operand) (t : State) : execCall a (f.record t) = Result.mapNext (execCall a t) f.record :=
  Res.andThen_mapState (operandsV_record f a t) fun target u _ =>
    Res.andThen_mapState (returnAddress_record f t.pc u) fun back u _ =>
      Res.andThen_mapState (push_record f t.pc back u) fun _ u _ =>
        Res.andThen_mapState (jumpTo_record f t.pc (target.setWidth 16) u) fun _ _ _ => rfl

theorem execRet_record (t : State) : execRet (f.record t) = Result.mapNext (execRet t) f.record := by
  refine Res.andThen_mapState (operandsZ_record f t) fun _ u _ => ?_
  rw [pop_record]
  cases pop u with
  | none => rfl
  | some p => exact Res.andThen_mapState (jumpTo_record f t.pc (p.1.setWidth 16) p.2) fun _ _ _ => rfl

/-- IN takes the state's own first answer; where there is none, `f` must not have a second one to offer. -/
theorem execInput_record (a : Operand) (t : State) (h : t.input = [] → f.input.tail = []) :
    execInput a (f.record t) = Result.mapNext (execInput a t) f.record := by
  refine Res.andThen_mapState (operandsR_record f a t) fun d u hu => ?_
  rw [← operandsR_input hu] at h
  rw [State.record_input]
  cases hin : u.input with
  | nil =>
    rw [h hin]
    rfl
  | cons ans rest =>
    cases ans with
    | eof => rfl
    | char code => exact congrArg Host.Outcome.next (acceptChar_record f d code (u.setInput rest))

theorem exec_record (i : Instr) (t : State) (h : t.input = [] → f.input.tail = []) :
    exec i (f.record t) = Result.mapNext (exec i t) f.record := by
  cases i
  case halt | nop => exact Res.andThen_mapState (operandsZ_record f t) fun _ _ _ => rfl
  case set a b | not a b => exact Res.andThen_mapState (operandsRV_record f a b t) fun _ _ _ => rfl
  case eq a b c | gt a b c | add a b c | mult a b c | and a b c | or a b c =>
    exact Res.andThen_mapState (operandsRVV_record f a b c t) fun _ _ _ => rfl
  case mod a b c => exact execMod_record f a b c t
  case push a =>
    exact Res.andThen_mapState (operandsV_record f a t) fun v u _ =>
      Res.andThen_mapState (push_record f t.pc v u) fun _ _ _ => rfl
  case pop a => exact execPop_record f a t
  case jmp a => exact Res.andThen_mapState (operandsV_record f a t) fun v u _ => jumpIf_record f true t.pc v u
  case jt a b | jf a b =>
    exact Res.andThen_mapState (operandsVV_record f a b t) fun p u _ => jumpIf_record f _ t.pc p.2 u
  case rmem a b =>
    exact Res.andThen_mapState (operandsRV_record f a b t) fun p u _ =>
      Res.andThen_mapState (checkAddr_record f t.pc (p.2.setWidth 16) u) fun _ _ _ => rfl
  case wmem a b =>
    exact Res.andThen_mapState (operandsVV_record f a b t) fun p u _ =>
      Res.andThen_mapState (checkAddr_record f t.pc (p.1.setWidth 16) u) fun _ _ _ => rfl
  case call a => exact execCall_record f a t
  case ret => exact execRet_record f t
  case out a =>
    exact Res.andThen_mapState (operandsV_record f a t) fun v u _ =>
      congrArg Host.Outcome.next (State.record_emit f u (v.setWidth 8))
  case input a => exact execInput_record f a t h

theorem fetchInstr_record (t : State) : fetchInstr (f.record t) = (fetchInstr t).mapError f.record := by
  have hinstr : instrAt (f.record t) = instrAt t := rfl
  rw [fetchInstr, fetchInstr, fetch_record, hinstr, State.record_toMachineState]
  cases fetch t.pc t with
  | raised u => rfl
  | ok op u => cases instrAt t <;> rfl

theorem step_record (t : State) (h : t.input = [] → f.input.tail = []) :
    step (f.record t) = Result.mapNext (step t) f.record := by
  have hstatus : (f.record t).status = t.status := rfl
  rw [step, step, hstatus, fetchInstr_record]
  cases t.status with
  | halted => rfl
  | faulted => rfl
  | running =>
    cases fetchInstr t with
    | error u => rfl
    | ok i => exact exec_record f i t h

end Record

/-- A state is its machine state and first answer, with its own channels around them. -/
theorem State.record_alone (s : State) : s.record (s.toMachineState.alone s.cfg s.input.head?) = s := by
  have hinput : s.input.head?.toList ++ s.input.tail = s.input := by cases s.input <;> rfl
  simp only [State.record, MachineState.alone, hinput, List.append_nil]

/-- Settles O59: the state is a record around its machine state alone, and the step commutes with that. -/
theorem stepReadsMachineStateAndOneAnswer : Obligations.StepReadsMachineStateAndOneAnswer := by
  intro s
  have hanswer : (s.toMachineState.alone s.cfg s.input.head?).input = [] → s.input.tail = [] := by
    rw [MachineState.alone_input]
    cases s.input with
    | nil => exact fun _ => rfl
    | cons a rest => exact nofun
  calc step s = step (s.record (s.toMachineState.alone s.cfg s.input.head?)) := by rw [State.record_alone]
    _ = Result.mapNext (s.toMachineState.step s.cfg s.input.head?) s.record := step_record s _ hanswer

end Sys2Proof.Machine
end

section
/-! What an instruction does to memory (`20_memory.md` R51 to R54, R70), and the two checks that no step fails
(`60_exceptions.md` R203, R209). -/

namespace Sys2Proof.Machine

/-- R51, R53: memory is as before, or the value of WMEM's first operand is the address of the one cell written. -/
theorem Completes.mem_cases {i : Instr} {s t : State} (h : Completes s i t) :
    t.mem = s.mem ∨
    ∃ e v : Word, storeAddress s i = some e.toNat ∧ t.mem = s.mem.write e.toNat (v.setWidth 16) := by
  cases h with
  | wmem a b e v he => exact .inr ⟨e, v, congrArg (Option.map BitVec.toNat) he, rfl⟩
  | _ => exact .inl rfl

/-- R50: every Word is the address of a cell. -/
theorem Memory.read_write_word (m : Memory) (e : Word) (x : Nat) (v : StoredWord) :
    (m.write e.toNat v).read x = if e.toNat = x then v else m.read x :=
  Memory.read_write m e.toNat x v e.isLt

/-- Settles O36: a fault stores nothing, and an instruction that completes stores at its store address alone. -/
theorem memoryChangesOnlyAtStoreAddress : Obligations.MemoryChangesOnlyAtStoreAddress := by
  intro i s t x h hx
  obtain ⟨tr, rfl, -⟩ | ⟨-, hc⟩ := exec_next h
  · rfl
  · obtain hm | ⟨e, v, he, hm⟩ := hc.mem_cases
    · exact congrArg (Memory.read · x) hm
    · have hne : e.toNat ≠ x := fun hex => hx (hex ▸ he)
      rw [State.memRead, hm]
      exact Memory.read_write_ne _ _ _ _ hne

/-- Settles O37: the cell that is written holds a Word, and every other cell is as before. -/
theorem storedValuesAreWords : Obligations.StoredValuesAreWords := by
  intro s t x h hbig
  obtain ⟨-, ⟨tr, rfl, -⟩ | ⟨i, -, -, heff⟩⟩ := step_next h
  · rfl
  · obtain hm | ⟨e, v, -, hm⟩ := heff.completes.mem_cases
    · exact congrArg (Memory.read · x) hm
    · rw [State.memRead, hm, Memory.read_write_word] at hbig ⊢
      by_cases hex : e.toNat = x
      · rw [if_pos hex] at hbig
        have hword := setWidth_toNat_le v
        omega
      · exact if_neg hex

/-- Settles O46: a trap has neither cause, and a running machine whose instruction completes has no fault. -/
theorem deadChecksNeverFire : Obligations.DeadChecksNeverFire := by
  intro s t h
  obtain ⟨hrun, ⟨tr, rfl, hjump, haddr, -⟩ | ⟨i, -, -, heff⟩⟩ := step_next h
  · exact ⟨fun hc => hjump (Option.some.inj hc), fun hc => haddr (Option.some.inj hc)⟩
  · have hnone : t.fault.cause = none := by
      rw [heff.completes.fault_eq]
      exact (State.status_eq_running_iff.1 hrun).1
    rw [hnone]
    exact ⟨nofun, nofun⟩

/-- R161: a WMEM whose words are in memory and whose operands have values stores. -/
theorem exec_wmem_ok {s : State} {a b : Operand} {e v : Word} (h : s.Room 3) (ha : valueOf? s a = some e)
    (hb : valueOf? s b = some v) :
    exec (.wmem a b) s = .next ((s.setPc (s.pc + 3)).memWrite e.toNat (v.setWidth 16)) := by
  rw [exec, execWmem, operandsVV_ok s h ha hb, Res.andThen_ok, checkAddr_word, Res.andThen_ok]

/-- R160: an RMEM whose words are in memory and whose operands are legal loads. -/
theorem exec_rmem_ok {s : State} {b : Operand} {e : Word} (d : RegIndex) (h : s.Room 3) (hb : valueOf? s b = some e) :
    exec (.rmem (.register d) b) s =
      .next ((s.setPc (s.pc + 3)).setReg d ((s.memRead e.toNat).setWidth 15)) := by
  rw [exec, execRmem, operandsRV_ok s d h hb, Res.andThen_ok, checkAddr_word, Res.andThen_ok]
  rfl

/-- An instruction that leaves no fault has all its words in memory. -/
theorem room_of_noFault {i : Instr} {s t : State} (h : exec i s = .next t) (hfault : t.fault.cause = none) :
    s.Room i.length := by
  obtain ⟨tr, rfl, -⟩ | ⟨hroom, -⟩ := exec_next h
  · cases hfault
  · exact hroom

/-- Settles O51: the cell reads as the stored word, which the load cuts to its 15 bits and the fetch returns whole. -/
theorem storeIsSeenByLoadAndFetch : Obligations.StoreIsSeenByLoadAndFetch := by
  intro s t u a b e v _ ha hb h hfault hmem
  have hread : u.memRead e.toNat = v.setWidth 16 := by
    cases (exec_wmem_ok (room_of_noFault h hfault) ha hb).symm.trans h
    rw [State.memRead, hmem, State.memWrite_mem, Memory.read_write_word, if_pos rfl]
  refine ⟨fun d c hroom hc => ?_, fun ia hpc => ?_⟩
  · have hcut : (v.setWidth 16).setWidth 15 = v := by
      rw [BitVec.setWidth_setWidth_of_le _ (by omega), BitVec.setWidth_eq]
    rw [exec_rmem_ok d hroom hc, hread, hcut]
    rfl
  · rw [fetch_ok ia u (by omega), hpc, hread, BitVec.ofNat_toNat]

end Sys2Proof.Machine
end

section
/-! The loader (`20_memory.md` R56 to R60): the words of a byte sequence, the cells of a loaded image, and which images
are refused. -/

namespace Sys2Proof

/-- R56, R61: a byte sequence of odd length has no words; one of even length has half as many words as bytes, each
little-endian. Past either end the default 0 stands on both sides. -/
theorem wordsOfBytes_cases (bs : List Byte) :
    (bs.length % 2 = 1 ∧ wordsOfBytes bs = none) ∨
    ∃ ws, wordsOfBytes bs = some ws ∧ bs.length = 2 * ws.length ∧
      ∀ i, (ws.getD i 0).toNat = (bs.getD (2 * i) 0).toNat + 256 * (bs.getD (2 * i + 1) 0).toNat := by
  induction bs using wordsOfBytes.induct with
  | case1 => exact .inr ⟨[], rfl, rfl, fun _ => rfl⟩
  | case2 b => exact .inl ⟨rfl, rfl⟩
  | case3 lo hi bs ih =>
    obtain ⟨hodd, hnone⟩ | ⟨ws, hws, hlen, hread⟩ := ih
    · exact .inl ⟨by simp only [List.length_cons]; omega, by rw [wordsOfBytes, hnone]; rfl⟩
    · refine .inr ⟨_, by rw [wordsOfBytes, hws]; rfl, by simp only [List.length_cons]; omega, fun i => ?_⟩
      cases i with
      | zero =>
        have hlo := lo.isLt
        have hhi := hi.isLt
        show (BitVec.ofNat 16 (lo.toNat + 256 * hi.toNat)).toNat = lo.toNat + 256 * hi.toNat
        rw [BitVec.toNat_ofNat]
        omega
      | succ i => exact hread i

theorem wordsOfBytes_of_odd {bs : List Byte} (h : bs.length % 2 = 1) : wordsOfBytes bs = none := by
  obtain ⟨-, hnone⟩ | ⟨ws, -, hlen, -⟩ := wordsOfBytes_cases bs
  · exact hnone
  · omega

theorem wordsOfBytes_of_even {bs : List Byte} (h : bs.length % 2 = 0) :
    ∃ ws, wordsOfBytes bs = some ws ∧ bs.length = 2 * ws.length := by
  obtain ⟨hodd, -⟩ | ⟨ws, hws, hlen, -⟩ := wordsOfBytes_cases bs
  · omega
  · exact ⟨ws, hws, hlen⟩

namespace Machine

/-- Nothing stands below the first cell of a block of words. -/
theorem read_memoryOfWords_below {a x : Nat} (ws : List StoredWord) (h : x < a) : (memoryOfWords a ws).read x = 0 := by
  induction ws generalizing a with
  | nil => rfl
  | cons w ws ih =>
    have htail := ih (Nat.lt_succ_of_lt h)
    by_cases hw : w = 0
    · rw [memoryOfWords, if_pos hw, htail]
    · rw [memoryOfWords, if_neg hw, Memory.read, if_neg (Nat.ne_of_gt h), htail]

theorem read_memoryOfWords_cons (a x : Nat) (w : StoredWord) (ws : List StoredWord) :
    (memoryOfWords a (w :: ws)).read x = if a = x then w else (memoryOfWords (a + 1) ws).read x := by
  by_cases hw : w = 0
  · rw [memoryOfWords, if_pos hw]
    by_cases hx : a = x
    · subst hx
      rw [if_pos rfl, hw, read_memoryOfWords_below ws (Nat.lt_succ_self a)]
    · rw [if_neg hx]
  · rw [memoryOfWords, if_neg hw, Memory.read]

/-- R56: the cells of a block hold its words in order, and every cell beyond it holds 0. -/
theorem read_memoryOfWords (a k : Nat) (ws : List StoredWord) : (memoryOfWords a ws).read (a + k) = ws.getD k 0 := by
  induction ws generalizing a k with
  | nil => rfl
  | cons w ws ih =>
    rw [read_memoryOfWords_cons]
    cases k with
    | zero => exact if_pos rfl
    | succ k =>
      rw [if_neg (by omega), ← Nat.add_assoc, Nat.add_right_comm, ih]
      rfl

theorem loadImage_of_words {bytes : List Byte} {ws : List StoredWord} (h : wordsOfBytes bytes = some ws) :
    loadImage (some bytes) = if ws.length > 32768 then .error .tooLong else .ok (memoryOfWords 0 ws) := by
  simp only [loadImage, h]

theorem loadImage_of_noWords {bytes : List Byte} (h : wordsOfBytes bytes = none) :
    loadImage (some bytes) = .error .oddLength := by
  simp only [loadImage, h]

/-- A loaded image is the block of its words from cell 0 on. -/
theorem loadImage_ok {bytes : List Byte} {ws : List StoredWord} {m : Memory} (hws : wordsOfBytes bytes = some ws)
    (h : loadImage (some bytes) = .ok m) : m = memoryOfWords 0 ws := by
  rw [loadImage_of_words hws] at h
  split at h
  · cases h
  · exact (Except.ok.inj h).symm

/-- Settles O52: cell `i` is word `i` of the image, and there are half as many words as bytes. -/
theorem loadedImageIsLittleEndian : Obligations.LoadedImageIsLittleEndian := by
  intro bytes m h
  obtain ⟨-, hnone⟩ | ⟨ws, hws, hlen, hbytes⟩ := wordsOfBytes_cases bytes
  · cases (loadImage_of_noWords hnone).symm.trans h
  · have hcell (i : Nat) : m.read i = ws.getD i 0 := by
      rw [loadImage_ok hws h, ← read_memoryOfWords 0 i ws, Nat.zero_add]
    refine ⟨fun i _ => ?_, fun i hi => ?_⟩
    · rw [hcell, hbytes]
    · rw [hcell, List.getD_eq_default _ _ (by omega)]

/-- Settles O53: only an odd length has no words, and 65536 bytes are 32768 words. -/
theorem loadRefusesExactlyBadImages : Obligations.LoadRefusesExactlyBadImages := by
  refine ⟨rfl, fun bytes hodd => loadImage_of_noWords (wordsOfBytes_of_odd hodd), fun bytes heven hlong => ?_,
    fun bytes heven hfits => ?_, fun _ => rfl⟩
  · obtain ⟨ws, hws, hlen⟩ := wordsOfBytes_of_even heven
    rw [loadImage_of_words hws, if_pos (by omega)]
  · obtain ⟨ws, hws, hlen⟩ := wordsOfBytes_of_even heven
    exact ⟨memoryOfWords 0 ws, by rw [loadImage_of_words hws, if_neg (by omega)]⟩

end Machine

end Sys2Proof
end

section
/-! Encoding and decoding are inverse (`30_encoding.md` R80 to R91): a word list decodes to an instruction exactly when the
instruction is well formed and the list begins with its words. -/

namespace Sys2Proof

/-- R83: a word stands for an operand exactly when the operand is well formed and has that word. -/
theorem Operand.ofWord_eq_iff (w : StoredWord) (o : Operand) : Operand.ofWord w = o ↔ o.wf = true ∧ o.toWord = w := by
  constructor
  · rintro rfl
    exact (Operand.toWord_ofWord w).symm
  · rintro ⟨hwf, rfl⟩
    exact Operand.ofWord_toWord o hwf

/-- R83 for all operands of an instruction at once. -/
theorem Instr.map_ofWord_eq_iff (i : Instr) (ws : List StoredWord) :
    ws.map Operand.ofWord = i.operands.map Prod.snd ↔
      i.wf = true ∧ i.operands.map (fun p => p.2.toWord) = ws := by
  unfold Instr.wf
  induction i.operands generalizing ws with
  | nil => cases ws <;> simp
  | cons p ops ih =>
    cases ws with
    | nil => simp
    | cons w ws =>
      simp only [List.map_cons, List.cons.injEq, List.all_cons, Bool.and_eq_true, ih, Operand.ofWord_eq_iff]
      exact and_and_and_comm

/-- R84: the longest instruction has three operands. -/
theorem Instr.operands_length_le (i : Instr) : i.operands.length ≤ 3 := by
  cases i <;> simp [Instr.operands]

theorem encode_length (i : Instr) : (encode i).length = i.length := by
  rw [encode, List.length_cons, List.length_map, Instr.length, Nat.add_comm]

/-- R81, R88: the decoder answers the instruction that has the given opcode word and whose operands the words after it
stand for, as many of them as it has operands. -/
theorem decodeWindow_eq_some_iff_operands (w0 w1 w2 w3 : StoredWord) (i : Instr) :
    decodeWindow w0 w1 w2 w3 = some i ↔
      i.opcode = w0 ∧ ([w1, w2, w3].take i.operands.length).map Operand.ofWord = i.operands.map Prod.snd := by
  constructor
  · intro h
    have opcode_eq {n : Nat} (hn : w0.toNat = n) : BitVec.ofNat 16 n = w0 := by
      rw [← hn, BitVec.ofNat_toNat, BitVec.setWidth_eq]
    unfold decodeWindow at h
    split at h <;> cases h <;> exact ⟨opcode_eq ‹_›, rfl⟩
  · rintro ⟨rfl, h⟩
    cases i <;> cases h <;> rfl

/-- R80, R82: the decoder answers the well-formed instruction whose words it was given. -/
theorem decodeWindow_eq_some_iff (w0 w1 w2 w3 : StoredWord) (i : Instr) :
    decodeWindow w0 w1 w2 w3 = some i ↔ i.wf = true ∧ encode i = [w0, w1, w2, w3].take i.length := by
  rw [decodeWindow_eq_some_iff_operands, Instr.map_ofWord_eq_iff, encode, Instr.length, Nat.add_comm, List.take_succ_cons,
    List.cons.injEq, and_left_comm]

/-- The first words of a list, read one by one as the decoder reads them. -/
theorem take_getD_eq_take {ws : List StoredWord} {n : Nat} (h3 : n ≤ 3) (hlen : n ≤ ws.length) :
    [ws.getD 0 0, ws.getD 1 0, ws.getD 2 0].take n = ws.take n := by
  refine List.ext_getElem (by simp only [List.length_take, List.length_cons, List.length_nil]; omega) fun k _ hk => ?_
  have hkn : k < n := (List.length_take_le n ws).trans_lt' hk
  have hk3 : k < 3 := hkn.trans_le h3
  rw [List.getElem_take, List.getElem_take, ← List.getD_eq_getElem ws 0 (hkn.trans_le hlen)]
  interval_cases k <;> rfl

/-- R80, R82 for a word list that holds all words of the instruction. -/
theorem decodeWindow_getD_eq_some_iff (w0 : StoredWord) {ws : List StoredWord} {i : Instr}
    (hlen : i.operands.length ≤ ws.length) :
    decodeWindow w0 (ws.getD 0 0) (ws.getD 1 0) (ws.getD 2 0) = some i ↔
      i.wf = true ∧ encode i = w0 :: ws.take i.operands.length := by
  rw [decodeWindow_eq_some_iff, Instr.length, Nat.add_comm, List.take_succ_cons,
    take_getD_eq_take i.operands_length_le hlen]

/-- R89: decoding a list is decoding its first words, unless the list ends inside the instruction. -/
theorem decode_cons_eq_instr_iff (w0 : StoredWord) (ws rest : List StoredWord) (i : Instr) :
    decode (w0 :: ws) = .instr i rest ↔
      decodeWindow w0 (ws.getD 0 0) (ws.getD 1 0) (ws.getD 2 0) = some i ∧
        i.operands.length ≤ ws.length ∧ ws.drop i.operands.length = rest := by
  rw [decode]
  cases decodeWindow w0 (ws.getD 0 0) (ws.getD 1 0) (ws.getD 2 0) with
  | none => exact ⟨nofun, fun h => nomatch h.1⟩
  | some j =>
    simp only [Option.some.injEq]
    split
    next hshort =>
      refine ⟨nofun, ?_⟩
      rintro ⟨rfl, hlen, -⟩
      omega
    next hlen =>
      rw [Decoded.instr.injEq]
      refine and_congr_right ?_
      rintro rfl
      exact (and_iff_right (Nat.le_of_not_lt hlen)).symm

/-- R80 to R89: a list decodes to a well-formed instruction exactly when it is the instruction's words and the rest. -/
theorem decode_eq_instr_iff (ws rest : List StoredWord) (i : Instr) :
    decode ws = .instr i rest ↔ i.wf = true ∧ encode i ++ rest = ws := by
  cases ws with
  | nil => exact ⟨nofun, fun h => nomatch h.2⟩
  | cons w0 ws =>
    rw [decode_cons_eq_instr_iff]
    constructor
    · rintro ⟨hi, hlen, rfl⟩
      obtain ⟨hwf, henc⟩ := (decodeWindow_getD_eq_some_iff w0 hlen).1 hi
      exact ⟨hwf, by rw [henc, List.cons_append, List.take_append_drop]⟩
    · rintro ⟨hwf, henc⟩
      obtain ⟨rfl, rfl⟩ := List.cons.inj henc
      have hwords : (i.operands.map fun p => p.2.toWord).length = i.operands.length := List.length_map _
      have hlen : i.operands.length ≤ ((i.operands.map fun p => p.2.toWord) ++ rest).length := by
        rw [List.length_append]
        omega
      refine ⟨(decodeWindow_getD_eq_some_iff i.opcode hlen).2 ⟨hwf, ?_⟩, hlen, List.drop_left' hwords⟩
      rw [List.take_left' hwords, encode]

/-- Settles O1: one direction of `decode_eq_instr_iff`. -/
theorem decodeEncodeRoundTrip : Obligations.DecodeEncodeRoundTrip :=
  fun i rest hwf => (decode_eq_instr_iff (encode i ++ rest) rest i).2 ⟨hwf, rfl⟩

/-- Settles O2: the other direction of `decode_eq_instr_iff`. -/
theorem decodedWordsEncodeBack : Obligations.DecodedWordsEncodeBack :=
  fun ws rest i => (decode_eq_instr_iff ws rest i).1

/-- Settles O3, by reading the table's row for each instruction. -/
theorem instructionLengthTable : Obligations.InstructionLengthTable := by
  refine fun i => ⟨encode_length i, ?_⟩
  cases i <;> rfl

/-- Settles O4: the three ranges, and a word below 32768 is its own low 15 bits. -/
theorem operandWordRanges : Obligations.OperandWordRanges := by
  refine fun w => ⟨fun h => ⟨w.setWidth 15, Operand.ofWord_literal w h, ?_⟩, Operand.ofWord_register w,
    Operand.ofWord_invalid w⟩
  rw [BitVec.toNat_setWidth]
  omega

/-- Settles O5, by running the decoder on each word list. -/
theorem writtenOutWordsDecode : Obligations.WrittenOutWordsDecode := by
  unfold Obligations.WrittenOutWordsDecode
  decide

namespace Machine

/-- Settles O8: the words of the instruction are the first of the four that `instrAt` reads from `pc` on. -/
theorem stepReadsTheInstructionStream : Obligations.StepReadsTheInstructionStream := by
  intro s i k hi hk
  obtain ⟨-, henc⟩ := (decodeWindow_eq_some_iff _ _ _ _ i).1 hi
  have hk4 : k < 4 := by
    have hops := i.operands_length_le
    rw [Instr.length] at hk
    omega
  rw [henc, List.getElem?_take_of_lt hk]
  interval_cases k <;> rfl

end Machine

end Sys2Proof
end

section
/-! What a step of a running machine does before the instruction (`40_step_and_operands.md` R100 to R103, R110): the opcode
fetch and the dispatch, and the outcomes the step can have. -/

namespace Sys2Proof.Machine

/-- R102, R103, R110: a running machine faults at the opcode fetch, faults at the dispatch, or runs the instruction at
`pc`. -/
theorem step_running_cases {s : State} (hrun : s.status = .running) :
    (32767 < s.pc.toNat ∧
      step s = .next (s.trapped { cause := .instructionPointerOutOfRange, info := s.pc, words := 0 })) ∨
    (s.pc.toNat ≤ 32767 ∧ instrAt s = none ∧
      step s = .next (s.trapped { cause := .unknownOpcode, info := s.memRead s.pc.toNat, words := 1 })) ∨
    (∃ i, s.pc.toNat ≤ 32767 ∧ instrAt s = some i ∧ step s = exec i s) := by
  rw [step, hrun]
  obtain ⟨hpc, hf⟩ | ⟨hpc, hi, hf⟩ | ⟨i, hpc, hi, hf⟩ := fetchInstr_cases s
  · exact .inl ⟨hpc, by rw [hf, raise_eq_trapped]⟩
  · exact .inr (.inl ⟨hpc, hi, by rw [hf]; rfl⟩)
  · exact .inr (.inr ⟨i, hpc, hi, by rw [hf]⟩)

theorem step_of_instrAt {s : State} {i : Instr} (hrun : s.status = .running) (hpc : s.pc.toNat ≤ 32767)
    (hi : instrAt s = some i) : step s = exec i s := by
  obtain ⟨hend, -⟩ | ⟨-, hnone, -⟩ | ⟨j, -, hj, hstep⟩ := step_running_cases hrun
  · omega
  · cases hnone.symm.trans hi
  · cases hj.symm.trans hi
    exact hstep

/-- Settles O6: there is an instruction at `pc` exactly when the word there is below 22. -/
theorem opcodeDispatch : Obligations.OpcodeDispatch := by
  intro s hrun hpc
  obtain ⟨hend, -⟩ | ⟨-, hnone, hstep⟩ | ⟨i, -, hi, hstep⟩ := step_running_cases hrun
  · omega
  · have hge := instrAt_none_iff.1 hnone
    exact ⟨fun hlt => by omega, fun _ => hstep⟩
  · refine ⟨fun _ => ⟨i, hi, (instrAt_wf hi).2, hstep⟩, fun hge => ?_⟩
    cases (instrAt_none_iff.2 hge).symm.trans hi

/-- Settles O11: a fault is a next state, and so is the end of every instruction but an IN without an answer. -/
theorem runningStepCompletesOrAwaitsInput : Obligations.RunningStepCompletesOrAwaitsInput := by
  intro s hrun
  obtain ⟨-, hstep⟩ | ⟨-, -, hstep⟩ | ⟨i, -, hi, hstep⟩ := step_running_cases hrun
  · exact .inl ⟨_, hstep⟩
  · exact .inl ⟨_, hstep⟩
  · obtain ⟨tr, he, -⟩ | ⟨t, he, -, -⟩ | ⟨hin, hroom, ⟨d, rfl⟩, he⟩ := exec_cases i s
    · exact .inl ⟨_, hstep.trans he⟩
    · exact .inl ⟨t, hstep.trans he⟩
    · exact .inr ⟨hin, hroom, ⟨d, hi⟩, hstep.trans he⟩

/-- Settles O7: what `decode` answers on the four words at `pc` is the instruction that `instrAt` reads there. -/
theorem stepRunsTheDecodedInstruction : Obligations.StepRunsTheDecodedInstruction := by
  intro s i rest hrun hpc hdec
  have hi : instrAt s = some i := ((decode_cons_eq_instr_iff _ _ rest i).1 hdec).1
  exact ⟨(instrAt_wf hi).1, step_of_instrAt hrun hpc hi⟩

/-- Settles O10: by the status, and for a running machine by the outcomes O11 names. -/
theorem stepOnlyInRunningStatus : Obligations.StepOnlyInRunningStatus := by
  refine fun s => ⟨fun h => by rw [step, h], fun h => by rw [step, h], fun hrun => ?_⟩
  obtain ⟨t, hstep⟩ | ⟨-, -, -, hstep⟩ := runningStepCompletesOrAwaitsInput s hrun
  · rw [hstep]
    exact ⟨nofun, nofun⟩
  · rw [hstep]
    exact ⟨nofun, nofun⟩

/-- Settles O12: the first case of `step_running_cases`. -/
theorem opcodeFetchPastMemoryFaults : Obligations.OpcodeFetchPastMemoryFaults := by
  intro s hrun hend
  obtain ⟨-, hstep⟩ | ⟨hpc, -⟩ | ⟨i, hpc, -⟩ := step_running_cases hrun
  · exact hstep
  · omega
  · omega

end Sys2Proof.Machine
end

section
/-! The step is the spec's pseudocode (`40_step_and_operands.md` R110). The model decodes all operand words ahead, the
pseudocode fetches each one when it needs it. The two run side by side: after each operand both have faulted alike, or
both stand at the same cursor, where the rest of the two has to agree. -/

namespace Sys2Proof.Machine
open Pseudocode (valWord regWord valFetch regFetch execBinary execUnary execBranch)

/-- The operand that word `k` of an instruction at `pc` stands for. Irreducible, so that a case split on the instruction
at `pc` puts it in place of the operands as it stands. -/
@[irreducible] def State.operandAt (s : State) (k : Nat) : Operand := .ofWord (s.memRead (s.pc.toNat + k))

/-- R80, R82: the operands of the instruction at `pc` are those of the words after it. -/
theorem instrAt_operands {s : State} {i : Instr} (hi : instrAt s = some i) :
    [s.operandAt 1, s.operandAt 2, s.operandAt 3].take i.operands.length = i.operands.map Prod.snd := by
  obtain ⟨-, hops⟩ := (decodeWindow_eq_some_iff_operands _ _ _ _ i).1 hi
  rw [← hops, List.map_take]
  simp only [State.operandAt, List.map_cons, List.map_nil]

theorem Res.andThen_bind {α β : Type} (r : Res α) (k : α → State → Res β) (f : β → State → Result) :
    (r.bind k).andThen f = r.andThen fun a t => (k a t).andThen f := by
  cases r <;> rfl

/-! ### One operand -/

/-- R104, the operand decoded ahead or resolved from its word. -/
theorem val_ofWord (ia w : StoredWord) (s : State) : val ia (.ofWord w) s = valWord ia w s := by
  rw [Operand.ofWord, valWord]
  split_ifs <;> rfl

/-- R105, the operand decoded ahead or resolved from its word. -/
theorem reg_ofWord (ia w : StoredWord) (s : State) : reg ia (.ofWord w) s = regWord ia w s := by
  by_cases h : 32768 ≤ w.toNat ∧ w.toNat < 32776
  · rw [regWord, dif_pos h, Operand.ofWord_register w ⟨w.toNat - 32768, by omega⟩ (Nat.add_sub_cancel' h.1).symm]
    rfl
  · have hnone : registerOf? (.ofWord w) = none := by
      rw [Operand.ofWord]
      split_ifs with hlit hreg
      · rfl
      · omega
      · rfl
    rw [regWord, dif_neg h, reg, hnone, (Operand.toWord_ofWord w).1]

/-- R104: an operand that resolves leaves the state as it is, so the rest has to agree there only. -/
theorem val_andThen {ia w : StoredWord} {s : State} {K K' : Word → State → Result} (hK : ∀ v, K v s = K' v s) :
    (val ia (.ofWord w) s).andThen K = (valWord ia w s).andThen K' := by
  rw [← val_ofWord, val]
  cases valueOf? s (.ofWord w) with
  | none => rfl
  | some v => exact hK v

theorem reg_andThen {ia w : StoredWord} {s : State} {K K' : RegIndex → State → Result} (hK : ∀ d, K d s = K' d s) :
    (reg ia (.ofWord w) s).andThen K = (regWord ia w s).andThen K' := by
  rw [← reg_ofWord, reg]
  cases registerOf? (.ofWord w) with
  | none => rfl
  | some d => exact hK d

section Cursor
variable {s : State} (k : Nat)

/-- After the fetch of word `k` of the instruction at `pc` only what follows for that word matters. -/
theorem fetch_andThen_congr (h : s.Room k) {K K' : StoredWord → State → Result}
    (hK : s.Room (k + 1) → K (s.memRead (s.pc.toNat + k)) (s.setPc (s.pc + BitVec.ofNat 16 (k + 1))) =
      K' (s.memRead (s.pc.toNat + k)) (s.setPc (s.pc + BitVec.ofNat 16 (k + 1)))) :
    (fetch s.pc (s.setPc (s.pc + BitVec.ofNat 16 k))).andThen K =
      (fetch s.pc (s.setPc (s.pc + BitVec.ofNat 16 k))).andThen K' := by
  obtain hk | hk := Nat.lt_or_eq_of_le h
  · rw [fetch_at s k (by omega)]
    exact hK hk
  · rw [fetch_at_end s k hk]
    rfl

theorem fetchVal_andThen (h : s.Room k) {K K' : Word → State → Result}
    (hK : s.Room (k + 1) → ∀ v, K v (s.setPc (s.pc + BitVec.ofNat 16 (k + 1))) =
      K' v (s.setPc (s.pc + BitVec.ofNat 16 (k + 1)))) :
    (fetchVal s.pc (s.operandAt k) (s.setPc (s.pc + BitVec.ofNat 16 k))).andThen K =
      (valFetch s.pc (s.setPc (s.pc + BitVec.ofNat 16 k))).andThen K' := by
  rw [fetchVal, valFetch, Res.andThen_bind, Res.andThen_bind, State.operandAt]
  exact fetch_andThen_congr k h fun hroom => val_andThen (hK hroom)

theorem fetchReg_andThen (h : s.Room k) {K K' : RegIndex → State → Result}
    (hK : s.Room (k + 1) → ∀ d, K d (s.setPc (s.pc + BitVec.ofNat 16 (k + 1))) =
      K' d (s.setPc (s.pc + BitVec.ofNat 16 (k + 1)))) :
    (fetchReg s.pc (s.operandAt k) (s.setPc (s.pc + BitVec.ofNat 16 k))).andThen K =
      (regFetch s.pc (s.setPc (s.pc + BitVec.ofNat 16 k))).andThen K' := by
  rw [fetchReg, regFetch, Res.andThen_bind, Res.andThen_bind, State.operandAt]
  exact fetch_andThen_congr k h fun hroom => reg_andThen (hK hroom)

end Cursor

/-! ### The operand formats -/

section Formats
variable {s : State} (hpc : s.pc.toNat ≤ 32767)
include hpc

theorem operandsR_andThen {K K' : RegIndex → State → Result}
    (hK : s.Room 2 → ∀ d, K d (s.setPc (s.pc + 2)) = K' d (s.setPc (s.pc + 2))) :
    (operandsR (s.operandAt 1) s).andThen K = (regFetch s.pc (s.setPc (s.pc + 1))).andThen K' := by
  rw [operandsR, operandsZ_ok s hpc]
  exact fetchReg_andThen 1 (Nat.succ_le_succ hpc) hK

theorem operandsV_andThen {K K' : Word → State → Result}
    (hK : s.Room 2 → ∀ v, K v (s.setPc (s.pc + 2)) = K' v (s.setPc (s.pc + 2))) :
    (operandsV (s.operandAt 1) s).andThen K = (valFetch s.pc (s.setPc (s.pc + 1))).andThen K' := by
  rw [operandsV, operandsZ_ok s hpc]
  exact fetchVal_andThen 1 (Nat.succ_le_succ hpc) hK

theorem operandsRV_andThen {K : RegIndex × Word → State → Result} {K' : RegIndex → Word → State → Result}
    (hK : s.Room 3 → ∀ d v, K (d, v) (s.setPc (s.pc + 3)) = K' d v (s.setPc (s.pc + 3))) :
    (operandsRV (s.operandAt 1) (s.operandAt 2) s).andThen K =
      (regFetch s.pc (s.setPc (s.pc + 1))).andThen fun d t => (valFetch s.pc t).andThen (K' d) := by
  rw [operandsRV, Res.andThen_bind]
  refine operandsR_andThen hpc fun hroom d => ?_
  rw [Res.andThen_bind]
  exact fetchVal_andThen 2 hroom fun hroom v => hK hroom d v

theorem operandsVV_andThen {K : Word × Word → State → Result} {K' : Word → Word → State → Result}
    (hK : s.Room 3 → ∀ v w, K (v, w) (s.setPc (s.pc + 3)) = K' v w (s.setPc (s.pc + 3))) :
    (operandsVV (s.operandAt 1) (s.operandAt 2) s).andThen K =
      (valFetch s.pc (s.setPc (s.pc + 1))).andThen fun v t => (valFetch s.pc t).andThen (K' v) := by
  rw [operandsVV, Res.andThen_bind]
  refine operandsV_andThen hpc fun hroom v => ?_
  rw [Res.andThen_bind]
  exact fetchVal_andThen 2 hroom fun hroom w => hK hroom v w

/-- The third operand is left to the caller: MOD needs its word and not only its value. -/
theorem operandsRVV_andThen {K : RegIndex × Word × Word → State → Result} {K' : RegIndex → Word → State → Result}
    (hK : s.Room 3 → ∀ d v,
      ((fetchVal s.pc (s.operandAt 3) (s.setPc (s.pc + 3))).andThen fun w => K (d, v, w)) =
        K' d v (s.setPc (s.pc + 3))) :
    (operandsRVV (s.operandAt 1) (s.operandAt 2) (s.operandAt 3) s).andThen K =
      (regFetch s.pc (s.setPc (s.pc + 1))).andThen fun d t => (valFetch s.pc t).andThen (K' d) := by
  rw [operandsRVV, Res.andThen_bind]
  refine operandsRV_andThen hpc fun hroom d v => ?_
  rw [Res.andThen_bind]
  exact hK hroom d v

/-! ### The instructions -/

theorem binary_eq_execBinary (f : Word → Word → Word) {g : Word → Word → Word} (hfg : ∀ v w, f v w = g v w) :
    ((operandsRVV (s.operandAt 1) (s.operandAt 2) (s.operandAt 3) s).andThen fun p t =>
      .next (t.setReg p.1 (f p.2.1 p.2.2))) = execBinary g s.pc (s.setPc (s.pc + 1)) :=
  operandsRVV_andThen hpc fun hroom d v =>
    fetchVal_andThen 3 hroom fun _ w => by rw [hfg]

theorem unary_eq_execUnary (f : Word → Word) {g : Word → Word} (hfg : ∀ v, f v = g v) :
    ((operandsRV (s.operandAt 1) (s.operandAt 2) s).andThen fun p t => .next (t.setReg p.1 (f p.2))) =
      execUnary g s.pc (s.setPc (s.pc + 1)) :=
  operandsRV_andThen hpc fun _ d v => by rw [hfg]

theorem branch_eq_execBranch (f : Word → Bool) {g : Word → Bool} (hfg : ∀ v, f v = g v) :
    ((operandsVV (s.operandAt 1) (s.operandAt 2) s).andThen fun p t => jumpIf (f p.1) s.pc p.2 t) =
      execBranch g s.pc (s.setPc (s.pc + 1)) :=
  operandsVV_andThen hpc fun _ v w => by rw [hfg, jumpIf]

theorem execMod_eq_pseudocode :
    execMod (s.operandAt 1) (s.operandAt 2) (s.operandAt 3) s = Pseudocode.execMOD s.pc (s.setPc (s.pc + 1)) := by
  refine operandsRVV_andThen hpc fun hroom d v => ?_
  rw [fetchVal, Res.andThen_bind, State.operandAt]
  refine fetch_andThen_congr 3 hroom fun _ => val_andThen fun w => ?_
  rw [(Operand.toWord_ofWord _).1]
  rfl

theorem execCall_eq_pseudocode :
    execCall (s.operandAt 1) s = Pseudocode.execCALL s.pc (s.setPc (s.pc + 1)) := by
  refine operandsV_andThen hpc fun _ target => ?_
  rw [returnAddress]
  split_ifs <;> rfl

theorem execRet_eq_pseudocode : execRet s = Pseudocode.execRET s.pc (s.setPc (s.pc + 1)) := by
  rw [execRet, operandsZ_ok s hpc]
  rfl

theorem execInput_eq_pseudocode :
    execInput (s.operandAt 1) s = Pseudocode.execIN s.pc (s.setPc (s.pc + 1)) := by
  refine operandsR_andThen hpc fun _ d => ?_
  rw [State.setPc_input]
  cases s.input with
  | nil => rfl
  | cons ans rest =>
    cases ans with
    | eof => rfl
    | char code => exact apply_ite Host.Outcome.next (code = 10) _ _

end Formats

/-! ### The values the blocks write -/

theorem wordOfBool_decide (p : Prop) [Decidable p] : wordOfBool (decide p) = if p then 1 else 0 := by
  simp only [wordOfBool, decide_eq_true_eq]

theorem wordOfBool_toNat_eq (v w : Word) : wordOfBool (decide (v.toNat = w.toNat)) = if v = w then 1 else 0 := by
  simp only [wordOfBool_decide, BitVec.toNat_inj]

/-- R150: the complement on 15 bits is the complement on 16 bits without its top bit. -/
theorem aluNot_eq (v : Word) : aluNot v = (~~~(v.setWidth 16)).setWidth 15 := by
  ext k hk
  simp [aluNot]

/-! ### The step -/

/-- The instruction at `pc` does what the block of its opcode does. -/
theorem exec_eq_pseudocode {s : State} {i : Instr} (hrun : s.status = .running) (hpc : s.pc.toNat ≤ 32767)
    (hi : instrAt s = some i) : exec i s = Pseudocode.step s := by
  have hops := instrAt_operands hi
  simp only [Pseudocode.step, hrun, fetch_ok s.pc s hpc, Res.andThen_ok, ← (instrAt_wf hi).2]
  cases i <;> cases hops
  case halt => rw [exec, execHalt, operandsZ_ok s hpc]; rfl
  case nop => rw [exec, execNop, operandsZ_ok s hpc]; rfl
  case set => exact unary_eq_execUnary hpc (fun v => v) fun _ => rfl
  case not => exact unary_eq_execUnary hpc aluNot aluNot_eq
  case eq => exact binary_eq_execBinary hpc (fun v w => wordOfBool (decide (v.toNat = w.toNat))) wordOfBool_toNat_eq
  case gt =>
    exact binary_eq_execBinary hpc (fun v w => wordOfBool (decide (v.toNat > w.toNat))) fun _ _ => wordOfBool_decide _
  case add => exact binary_eq_execBinary hpc aluAdd fun _ _ => rfl
  case mult => exact binary_eq_execBinary hpc aluMult fun _ _ => rfl
  case and => exact binary_eq_execBinary hpc aluAnd fun _ _ => rfl
  case or => exact binary_eq_execBinary hpc aluOr fun _ _ => rfl
  case mod => exact execMod_eq_pseudocode hpc
  case jt => exact branch_eq_execBranch hpc (fun v => decide (v ≠ 0)) fun _ => decide_not
  case jf => exact branch_eq_execBranch hpc (fun v => decide (v = 0)) fun _ => rfl
  case push | jmp | out => exact operandsV_andThen hpc fun _ _ => rfl
  case pop => exact operandsR_andThen hpc fun _ _ => rfl
  case rmem => exact operandsRV_andThen hpc fun _ _ _ => rfl
  case wmem => exact operandsVV_andThen hpc fun _ _ _ => rfl
  case call => exact execCall_eq_pseudocode hpc
  case ret => exact execRet_eq_pseudocode hpc
  case input => exact execInput_eq_pseudocode hpc

theorem Pseudocode.step_of_unknownOpcode {s : State} (hrun : s.status = .running) (hpc : s.pc.toNat ≤ 32767)
    (hi : instrAt s = none) :
    Pseudocode.step s =
      .next (s.trapped { cause := .unknownOpcode, info := s.memRead s.pc.toNat, words := 1 }) := by
  -- `n + 22` is none of the literals of the dispatch, by computation
  obtain ⟨n, hn⟩ := Nat.exists_eq_add_of_le' (instrAt_none_iff.1 hi)
  simp only [Pseudocode.step, hrun, fetch_ok s.pc s hpc, Res.andThen_ok, hn]
  rfl

theorem Pseudocode.step_outOfRange {s : State} (hrun : s.status = .running) (hend : 32767 < s.pc.toNat) :
    Pseudocode.step s =
      .next (s.trapped { cause := .instructionPointerOutOfRange, info := s.pc, words := 0 }) := by
  simp only [Pseudocode.step, hrun, fetch_outOfRange s.pc s hend, Res.andThen_raised, raise_eq_trapped]

/-- Settles O9: in a terminal status neither steps; in the Running status by the cases of the fetch and dispatch. -/
theorem stepIsTheSpecPseudocode : Obligations.StepIsTheSpecPseudocode := by
  intro s
  cases hstatus : s.status with
  | halted => rw [step, Pseudocode.step, hstatus]
  | faulted => rw [step, Pseudocode.step, hstatus]
  | running =>
    obtain ⟨hend, hstep⟩ | ⟨hpc, hi, hstep⟩ | ⟨i, hpc, hi, hstep⟩ := step_running_cases hstatus
    · rw [hstep, Pseudocode.step_outOfRange hstatus hend]
    · rw [hstep, Pseudocode.step_of_unknownOpcode hstatus hpc hi]
    · rw [hstep, exec_eq_pseudocode hstatus hpc hi]

end Sys2Proof.Machine
end

section
/-! Operand faults, for every instruction at once (`40_step_and_operands.md` R107, `60_exceptions.md` R211, R215). -/

namespace Sys2Proof.Machine

theorem Res.andThen_of_raised {α : Type} {r : Res α} {s : State} (h : r = .raised s) (k : α → State → Result) :
    r.andThen k = .next s := by
  rw [h, Res.andThen_raised]

/-- Every instruction resolves the operands of its format before it does anything else. -/
theorem exec_operandTrap (i : Instr) : TrapsOnOperands i := by
  intro s tr hpc htr
  cases i with
  | halt | ret | nop => cases htr
  | pop | input => exact Res.andThen_of_raised (operandsR_trap hpc htr) _
  | push | jmp | call | out => exact Res.andThen_of_raised (operandsV_trap hpc htr) _
  | set | not | rmem => exact Res.andThen_of_raised (operandsRV_trap hpc htr) _
  | jt | jf | wmem => exact Res.andThen_of_raised (operandsVV_trap hpc htr) _
  | eq | gt | add | mult | mod | and | or => exact Res.andThen_of_raised (operandsRVV_trap hpc htr) _

end Sys2Proof.Machine
end

section
/-! SET, PUSH and POP where their operands resolve (`41_move_and_stack.md` R120 to R123). -/

namespace Sys2Proof.Machine

/-- R109: there is nothing to pop. -/
theorem pop_empty (s : State) (h : s.stack = []) : pop s = none := by
  simp [pop, h]

section Resolved

variable {s : State}

/-- R120. -/
theorem exec_set_ok {b : Operand} {v : Word} (d : RegIndex) (h : s.Room 3) (hb : valueOf? s b = some v) :
    exec (.set (.register d) b) s = .next ((s.setPc (s.pc + 3)).setReg d v) := by
  rw [exec, execSet, operandsRV_ok s d h hb, Res.andThen_ok]

/-- R121: after its operand, PUSH is the stack operation. -/
theorem exec_push_eq {a : Operand} {v : Word} (h : s.Room 2) (ha : valueOf? s a = some v) :
    exec (.push a) s = (push s.pc v (s.setPc (s.pc + 2))).andThen fun _ t => .next t := by
  rw [exec, execPush, operandsV_ok s h ha, Res.andThen_ok]

/-- R108, R121: PUSH with room on the stack. -/
theorem exec_push_ok {a : Operand} {v : Word} (h : s.Room 2) (ha : valueOf? s a = some v)
    (hroom : s.stack.length ≠ s.cfg.stackCapacity) :
    exec (.push a) s = .next ((s.setPc (s.pc + 2)).setStack (s.stack ++ [v])) := by
  obtain ⟨hfull, -⟩ | ⟨-, hpush⟩ := push_cases s.pc v (s.setPc (s.pc + 2))
  · exact absurd hfull hroom
  · rw [exec_push_eq h ha, hpush]
    rfl

/-- R205: PUSH on a full stack. -/
theorem exec_push_full {a : Operand} {v : Word} (h : s.Room 2) (ha : valueOf? s a = some v)
    (hfull : s.stack.length = s.cfg.stackCapacity) :
    exec (.push a) s = .next (s.trapped { cause := .stackOverflow, info := v.setWidth 16, words := 2 }) := by
  obtain ⟨-, hpush⟩ | ⟨hroom, -⟩ := push_cases s.pc v (s.setPc (s.pc + 2))
  · rw [exec_push_eq h ha, hpush]
    rfl
  · exact absurd hfull hroom

/-- R109, R122: POP with an entry on the stack. -/
theorem exec_pop_ok {st : List Word} {v : Word} (d : RegIndex) (h : s.Room 2) (hs : s.stack = st ++ [v]) :
    exec (.pop (.register d)) s = .next (((s.setPc (s.pc + 2)).setStack st).setReg d v) := by
  rw [exec, execPop, operandsR_ok s d h, Res.andThen_ok, pop_concat (s.setPc (s.pc + 2)) st v hs]

/-- R206: POP on an empty stack. -/
theorem exec_pop_empty (d : RegIndex) (h : s.Room 2) (hs : s.stack = []) :
    exec (.pop (.register d)) s = .next (s.trapped { cause := .stackUnderflow, info := 0, words := 2 }) := by
  rw [exec, execPop, operandsR_ok s d h, Res.andThen_ok, pop_empty (s.setPc (s.pc + 2)) hs]
  rfl

end Resolved

/-- Settles O15: SET's operands resolve, and the value is written past the instruction. -/
theorem setMeaning : Obligations.SetMeaning :=
  ⟨fun _ _ => ⟨rfl, exec_operandTrap _⟩, fun _ d _ _ hroom hb => exec_set_ok d hroom hb⟩

/-- Settles O16, by the two cases of the stack. -/
theorem pushMeaning : Obligations.PushMeaning :=
  ⟨fun _ => ⟨rfl, exec_operandTrap _⟩, fun _ _ _ hroom ha => ⟨exec_push_ok hroom ha, exec_push_full hroom ha⟩⟩

/-- Settles O17, by the two cases of the stack. -/
theorem popMeaning : Obligations.PopMeaning :=
  ⟨fun _ => ⟨rfl, exec_operandTrap _⟩, fun _ d hroom => ⟨fun _ _ => exec_pop_ok d hroom, exec_pop_empty d hroom⟩⟩

/-- R121, R205: a PUSH that leaves no fault found its operand's value and left it on top of the stack. -/
theorem stack_of_push_noFault {s u : State} {a : Operand} {x : Word} (ha : valueOf? s a = some x)
    (h : exec (.push a) s = .next u) (hfault : u.fault.cause = none) : u.stack = s.stack ++ [x] := by
  have hroom : s.Room 2 := room_of_noFault h hfault
  by_cases hfull : s.stack.length = s.cfg.stackCapacity
  · cases (exec_push_full hroom ha hfull).symm.trans h
    cases hfault
  · cases (exec_push_ok hroom ha hfull).symm.trans h
    rfl

/-- Settles O50: the PUSH left the value on top of the old stack, which is what the POP takes apart. -/
theorem popUndoesPush : Obligations.PopUndoesPush := by
  intro s u v a x d _ ha h hfault hstack hroom
  exact exec_pop_ok d hroom (hstack.trans (stack_of_push_noFault ha h hfault))

end Sys2Proof.Machine
end

section
/-! EQ and GT where their operands resolve (`42_compare.md` R130 to R132). -/

namespace Sys2Proof.Machine

/-- R82: an RVV instruction that only computes a value from its two writes it to the register, past the instruction. -/
theorem exec_binary_ok {s : State} {i : Instr} {d : RegIndex} {b c : Operand} {v w : Word} (f : Word → Word → Word)
    (hi : exec i s = (operandsRVV (.register d) b c s).andThen fun p t => .next (t.setReg p.1 (f p.2.1 p.2.2)))
    (h : s.Room 4) (hb : valueOf? s b = some v) (hc : valueOf? s c = some w) :
    exec i s = .next ((s.setPc (s.pc + 4)).setReg d (f v w)) := by
  rw [hi, operandsRVV_ok s d h hb hc, Res.andThen_ok]

section Resolved

variable {s : State} {b c : Operand} {v w : Word} (d : RegIndex) (h : s.Room 4) (hb : valueOf? s b = some v)
  (hc : valueOf? s c = some w)
include h hb hc

/-- R130, R132: two Words are equal exactly when their numbers are. -/
theorem exec_eq_ok :
    exec (.eq (.register d) b c) s = .next ((s.setPc (s.pc + 4)).setReg d (if v = w then 1 else 0)) := by
  rw [← wordOfBool_toNat_eq]
  exact exec_binary_ok (fun v w => wordOfBool (decide (v.toNat = w.toNat))) rfl h hb hc

/-- R131, R132: the first value is on the left. -/
theorem exec_gt_ok :
    exec (.gt (.register d) b c) s = .next ((s.setPc (s.pc + 4)).setReg d (if w.toNat < v.toNat then 1 else 0)) := by
  rw [← wordOfBool_decide]
  exact exec_binary_ok (fun v w => wordOfBool (decide (v.toNat > w.toNat))) rfl h hb hc

end Resolved

/-- Settles O18: EQ's operands resolve, and the result of the comparison is written past the instruction. -/
theorem eqMeaning : Obligations.EqMeaning :=
  ⟨fun _ _ _ => ⟨rfl, exec_operandTrap _⟩, fun _ d _ _ _ _ hroom hb hc => exec_eq_ok d hroom hb hc⟩

/-- Settles O19: GT's operands resolve, and the result of the comparison is written past the instruction. -/
theorem gtMeaning : Obligations.GtMeaning :=
  ⟨fun _ _ _ => ⟨rfl, exec_operandTrap _⟩, fun _ d _ _ _ _ hroom hb hc => exec_gt_ok d hroom hb hc⟩

end Sys2Proof.Machine
end

section
/-! JMP, JT and JF where their operands resolve (`43_jumps.md` R135 to R139). -/

namespace Sys2Proof.Machine

variable {s : State} {a b : Operand} {v target : Word}

/-- R135, R139: a jump to a Word cannot fault. -/
theorem exec_jmp_ok (h : s.Room 2) (ha : valueOf? s a = some target) :
    exec (.jmp a) s = .next (s.setPc (BitVec.ofNat 16 target.toNat)) := by
  rw [exec, execJmp, operandsV_ok s h ha, Res.andThen_ok, jumpIf_cases, if_pos rfl, BitVec.ofNat_toNat]
  rfl

/-- R136 to R138: both operands resolve first, and then the first one's value alone decides whether the second one's
value or the address past the instruction is the next `pc`. -/
theorem exec_branch_ok {i : Instr} {p : Prop} [Decidable p] (taken : Word → Bool)
    (hi : exec i s = (operandsVV a b s).andThen fun q t => jumpIf (taken q.1) s.pc q.2 t)
    (hp : taken v = true ↔ p) (h : s.Room 3) (ha : valueOf? s a = some v) (hb : valueOf? s b = some target) :
    exec i s = .next (s.setPc (if p then BitVec.ofNat 16 target.toNat else s.pc + 3)) := by
  rw [hi, operandsVV_ok s h ha hb, Res.andThen_ok, jumpIf_cases]
  by_cases hv : p
  · rw [if_pos (hp.2 hv), if_pos hv, BitVec.ofNat_toNat]
    rfl
  · rw [if_neg (mt hp.1 hv), if_neg hv]

/-- R136: a Word is other than 0 exactly when its number is. -/
theorem exec_jt_ok (h : s.Room 3) (ha : valueOf? s a = some v) (hb : valueOf? s b = some target) :
    exec (.jt a b) s = .next (s.setPc (if v.toNat ≠ 0 then BitVec.ofNat 16 target.toNat else s.pc + 3)) :=
  exec_branch_ok (fun v => decide (v ≠ 0)) rfl (decide_eq_true_iff.trans BitVec.toNat_ne) h ha hb

/-- R137. -/
theorem exec_jf_ok (h : s.Room 3) (ha : valueOf? s a = some v) (hb : valueOf? s b = some target) :
    exec (.jf a b) s = .next (s.setPc (if v.toNat = 0 then BitVec.ofNat 16 target.toNat else s.pc + 3)) :=
  exec_branch_ok (fun v => decide (v = 0)) rfl (decide_eq_true_iff.trans BitVec.toNat_eq) h ha hb

/-- Settles O20: JMP's operand resolves, and its value is a target that cannot fault. -/
theorem jmpMeaning : Obligations.JmpMeaning :=
  ⟨fun _ => ⟨rfl, exec_operandTrap _⟩, fun _ _ _ hroom ha => exec_jmp_ok hroom ha⟩

/-- Settles O21: JT's operands resolve, taken or not, and its condition picks the next `pc`. -/
theorem jtMeaning : Obligations.JtMeaning :=
  ⟨fun _ _ => ⟨rfl, exec_operandTrap _⟩, fun _ _ _ _ _ hroom ha hb => exec_jt_ok hroom ha hb⟩

/-- Settles O22: JF's operands resolve, taken or not, and its condition picks the next `pc`. -/
theorem jfMeaning : Obligations.JfMeaning :=
  ⟨fun _ _ => ⟨rfl, exec_operandTrap _⟩, fun _ _ _ _ _ hroom ha hb => exec_jf_ok hroom ha hb⟩

end Sys2Proof.Machine
end

section
/-! ADD, MULT, MOD, AND, OR and NOT where their operands resolve (`44_alu.md` R145 to R153). -/

namespace Sys2Proof.Machine

/-! ### The values they compute -/

/-- R145, R151. -/
theorem aluAdd_toNat (v w : Word) : (aluAdd v w).toNat = (v.toNat + w.toNat) % 32768 := by
  rw [aluAdd, BitVec.toNat_ofNat, Nat.mod_mod]

/-- R146, R152. -/
theorem aluMult_toNat (v w : Word) : (aluMult v w).toNat = v.toNat * w.toNat % 32768 := by
  rw [aluMult, BitVec.toNat_ofNat, Nat.mod_mod]

/-- R153: a remainder is at most its dividend, so it is a Word. -/
theorem aluMod_toNat (v w : Word) : (aluMod v w).toNat = v.toNat % w.toNat := by
  rw [aluMod, BitVec.toNat_ofNat, Nat.mod_eq_of_lt ((Nat.mod_le _ _).trans_lt v.isLt)]

/-- R148. -/
theorem aluAnd_getLsbD (v w : Word) (k : Nat) :
    (aluAnd v w).getLsbD k = true ↔ v.getLsbD k = true ∧ w.getLsbD k = true := by
  rw [aluAnd, BitVec.getLsbD_and, Bool.and_eq_true]

/-- R149. -/
theorem aluOr_getLsbD (v w : Word) (k : Nat) :
    (aluOr v w).getLsbD k = true ↔ v.getLsbD k = true ∨ w.getLsbD k = true := by
  rw [aluOr, BitVec.getLsbD_or, Bool.or_eq_true]

/-- R150: a Word has no bit above bit 14 to set. -/
theorem aluNot_getLsbD (v : Word) {k : Nat} (hk : k < 15) : (aluNot v).getLsbD k = true ↔ v.getLsbD k = false := by
  rw [aluNot, BitVec.getLsbD_not, decide_eq_true hk, Bool.true_and, Bool.not_eq_true']

/-- R150. -/
theorem aluNot_toNat (v : Word) : (aluNot v).toNat = 32767 - v.toNat :=
  BitVec.toNat_not

/-! ### The instructions -/

section Resolved

variable {s : State} {b c : Operand} {v w : Word}

/-- R147, R153, R208: both operands resolve first, and then the divisor's value alone decides. -/
theorem exec_mod_eq (d : RegIndex) (h : s.Room 4) (hb : valueOf? s b = some v) (hc : valueOf? s c = some w) :
    exec (.mod (.register d) b c) s =
      if w = 0 then .next (s.trapped { cause := .divisionByZero, info := c.toWord, words := 4 })
      else .next ((s.setPc (s.pc + 4)).setReg d (aluMod v w)) := by
  rw [exec, execMod, operandsRVV_ok s d h hb hc, Res.andThen_ok]
  rfl

/-- R150. -/
theorem exec_not_ok (d : RegIndex) (h : s.Room 3) (hb : valueOf? s b = some v) :
    exec (.not (.register d) b) s = .next ((s.setPc (s.pc + 3)).setReg d (aluNot v)) := by
  rw [exec, execNot, operandsRV_ok s d h hb, Res.andThen_ok]

end Resolved

/-- Settles O23: ADD's operands resolve, and the sum is written past the instruction. -/
theorem addMeaning : Obligations.AddMeaning :=
  ⟨fun _ _ _ => ⟨rfl, exec_operandTrap _⟩,
    fun _ _ _ _ v w hroom hb hc => ⟨aluAdd v w, aluAdd_toNat v w, exec_binary_ok aluAdd rfl hroom hb hc⟩⟩

/-- Settles O24: MULT's operands resolve, and the product is written past the instruction. -/
theorem multMeaning : Obligations.MultMeaning :=
  ⟨fun _ _ _ => ⟨rfl, exec_operandTrap _⟩,
    fun _ _ _ _ v w hroom hb hc => ⟨aluMult v w, aluMult_toNat v w, exec_binary_ok aluMult rfl hroom hb hc⟩⟩

/-- Settles O25, by whether the divisor is 0: the quotient that goes with the remainder is the one of the division. -/
theorem modMeaning : Obligations.ModMeaning := by
  refine ⟨fun _ _ _ => ⟨rfl, exec_operandTrap _⟩, fun s d b c v w hroom hb hc => ⟨fun hw => ?_, fun hw => ?_⟩⟩
  · refine ⟨aluMod v w, v.toNat / w.toNat, ?_, ?_, ?_⟩
    · rw [aluMod_toNat]
      exact Nat.mod_lt _ (Nat.pos_of_ne_zero hw)
    · rw [aluMod_toNat, Nat.div_add_mod']
    · exact (exec_mod_eq d hroom hb hc).trans (if_neg (BitVec.toNat_ne.2 hw))
  · exact (exec_mod_eq d hroom hb hc).trans (if_pos (BitVec.eq_of_toNat_eq hw))

/-- Settles O26: AND's operands resolve, and the conjunction of their bits is written past the instruction. -/
theorem andMeaning : Obligations.AndMeaning :=
  ⟨fun _ _ _ => ⟨rfl, exec_operandTrap _⟩,
    fun _ _ _ _ v w hroom hb hc =>
      ⟨aluAnd v w, fun k _ => aluAnd_getLsbD v w k, exec_binary_ok aluAnd rfl hroom hb hc⟩⟩

/-- Settles O27: OR's operands resolve, and the disjunction of their bits is written past the instruction. -/
theorem orMeaning : Obligations.OrMeaning :=
  ⟨fun _ _ _ => ⟨rfl, exec_operandTrap _⟩,
    fun _ _ _ _ v w hroom hb hc =>
      ⟨aluOr v w, fun k _ => aluOr_getLsbD v w k, exec_binary_ok aluOr rfl hroom hb hc⟩⟩

/-- Settles O28: NOT's operands resolve, and the complement is written past the instruction. -/
theorem notMeaning : Obligations.NotMeaning :=
  ⟨fun _ _ => ⟨rfl, exec_operandTrap _⟩,
    fun _ d _ v hroom hb =>
      ⟨aluNot v, fun _ hk => aluNot_getLsbD v hk, aluNot_toNat v, exec_not_ok d hroom hb⟩⟩

end Sys2Proof.Machine
end

section
/-! RMEM and WMEM where their operands resolve (`45_memory_access.md` R160 to R163). -/

namespace Sys2Proof.Machine

/-- Settles O29: RMEM's operands resolve, and the low 15 bits of the cell are written past the instruction. -/
theorem rmemMeaning : Obligations.RmemMeaning :=
  ⟨fun _ _ => ⟨rfl, exec_operandTrap _⟩,
    fun s d _ e hroom hb =>
      ⟨(s.memRead e.toNat).setWidth 15, BitVec.toNat_setWidth _ _, exec_rmem_ok d hroom hb⟩⟩

/-- R161: the cell at a Word's address, written with a Word, reads as that Word's number. -/
theorem State.memRead_memWrite_self (s : State) (e v : Word) :
    ((s.memWrite e.toNat (v.setWidth 16)).memRead e.toNat).toNat = v.toNat := by
  rw [State.memRead, State.memWrite_mem, Memory.read_write_word, if_pos rfl, BitVec.toNat_setWidth_of_le (by omega)]

/-- Settles O30: WMEM's operands resolve, and the store past the instruction changes the addressed cell alone. -/
theorem wmemMeaning : Obligations.WmemMeaning := by
  refine ⟨fun _ _ => ⟨rfl, exec_operandTrap _⟩, fun s a b e v hroom ha hb => ?_⟩
  refine ⟨_, exec_wmem_ok hroom ha hb, rfl, State.memRead_memWrite_self _ e v, fun x hx => ?_⟩
  exact Memory.read_write_ne s.mem e.toNat x _ hx.symm

end Sys2Proof.Machine
end

section
/-! CALL and RET where their operands resolve (`46_call_return.md` R170 to R174). -/

namespace Sys2Proof.Machine

/-- R170, R173: a return address below 32768 is a Word, as which it is kept whole. -/
theorem setWidth_returnAddress {s : State} (h : s.pc.toNat + 2 < 32768) :
    (BitVec.ofNat 15 (s.pc.toNat + 2)).setWidth 16 = s.pc + 2 := by
  apply BitVec.eq_of_toNat_eq
  rw [BitVec.toNat_setWidth, BitVec.toNat_ofNat, show (s.pc + 2).toNat = _ from cursor_toNat s 2 h.le]
  omega

/-- R170, R173: the return address that `returnAddress_cases` finds, as the address itself. -/
theorem returnAddress_ok {s : State} (h : s.pc.toNat + 2 < 32768) :
    returnAddress s.pc (s.setPc (s.pc + 2)) = .ok (BitVec.ofNat 15 (s.pc.toNat + 2)) (s.setPc (s.pc + 2)) := by
  obtain ⟨hend, -⟩ | ⟨-, back, hback, -, hok⟩ := returnAddress_cases s h.le
  · exact absurd hend h.ne
  · obtain ⟨-, rfl⟩ := BitVec.toNat_eq_nat.1 hback
    exact hok

section Resolved

variable {s : State} {a : Operand} {target : Word}

/-- R173: a CALL in the last two cells has no address to return to, and faults before it pushes. -/
theorem exec_call_end (ha : valueOf? s a = some target) (hend : s.pc.toNat + 2 = 32768) :
    exec (.call a) s =
      .next (s.trapped { cause := .instructionPointerOutOfRange, info := 32768, words := 2 }) := by
  obtain ⟨-, hraised⟩ | ⟨hlt, -⟩ := returnAddress_cases s hend.le
  · rw [exec, execCall, operandsV_ok s hend.le ha, Res.andThen_ok, hraised, Res.andThen_raised]
  · exact absurd hend hlt.ne

/-- R170: after its operand and its return address, CALL is the stack operation and a jump that cannot fault. -/
theorem exec_call_eq (h : s.pc.toNat + 2 < 32768) (ha : valueOf? s a = some target) :
    exec (.call a) s = (push s.pc (BitVec.ofNat 15 (s.pc.toNat + 2)) (s.setPc (s.pc + 2))).andThen
      fun _ t => .next (t.setPc (target.setWidth 16)) := by
  rw [exec, execCall, operandsV_ok s h.le ha, Res.andThen_ok, returnAddress_ok h, Res.andThen_ok]
  simp only [jumpTo_word, Res.andThen_ok]

/-- R205: CALL on a full stack. -/
theorem exec_call_full (h : s.pc.toNat + 2 < 32768) (ha : valueOf? s a = some target)
    (hfull : s.stack.length = s.cfg.stackCapacity) :
    exec (.call a) s = .next (s.trapped { cause := .stackOverflow, info := s.pc + 2, words := 2 }) := by
  obtain ⟨-, hpush⟩ | ⟨hroom, -⟩ := push_cases s.pc (BitVec.ofNat 15 (s.pc.toNat + 2)) (s.setPc (s.pc + 2))
  · rw [exec_call_eq h ha, hpush, setWidth_returnAddress h]
    rfl
  · exact absurd hfull hroom

/-- R170: CALL with room on the stack. -/
theorem exec_call_ok (h : s.pc.toNat + 2 < 32768) (ha : valueOf? s a = some target)
    (hroom : s.stack.length ≠ s.cfg.stackCapacity) :
    exec (.call a) s =
      .next ((s.setStack (s.stack ++ [BitVec.ofNat 15 (s.pc.toNat + 2)])).setPc (BitVec.ofNat 16 target.toNat)) := by
  obtain ⟨hfull, -⟩ | ⟨-, hpush⟩ := push_cases s.pc (BitVec.ofNat 15 (s.pc.toNat + 2)) (s.setPc (s.pc + 2))
  · exact absurd hfull hroom
  · rw [exec_call_eq h ha, hpush, BitVec.ofNat_toNat]
    rfl

/-- R172: RET on an empty stack is a normal halt. -/
theorem exec_ret_empty (h : s.pc.toNat ≤ 32767) (hs : s.stack = []) :
    exec .ret s = .next (s.setPc (s.pc + 1)).setHalted := by
  rw [exec, execRet, operandsZ_ok s h, Res.andThen_ok, pop_empty (s.setPc (s.pc + 1)) hs]

/-- R171: RET with an entry on the stack. -/
theorem exec_ret_ok {st : List Word} (h : s.pc.toNat ≤ 32767) (hs : s.stack = st ++ [target]) :
    exec .ret s = .next ((s.setStack st).setPc (BitVec.ofNat 16 target.toNat)) := by
  rw [exec, execRet, operandsZ_ok s h, Res.andThen_ok, pop_concat (s.setPc (s.pc + 1)) st target hs, BitVec.ofNat_toNat]
  simp only [jumpTo_word, Res.andThen_ok]
  rfl

end Resolved

/-- Settles O31, by the return address and then the two cases of the stack. -/
theorem callMeaning : Obligations.CallMeaning :=
  ⟨fun _ => ⟨rfl, exec_operandTrap _⟩,
    fun _ _ _ _ ha => ⟨exec_call_end ha, fun hlt => exec_call_full hlt ha, fun hlt => exec_call_ok hlt ha⟩⟩

/-- Settles O32, by the two cases of the stack: the halt's status is that of a set flag without a fault. -/
theorem retMeaning : Obligations.RetMeaning := by
  refine ⟨rfl, fun s hpc => ⟨fun hs => ?_, fun _ _ hs => exec_ret_ok hpc hs⟩⟩
  obtain ⟨-, hhalted, -⟩ := statusAndExitStatus (s.setPc (s.pc + 1)).setHalted
  exact ⟨_, exec_ret_empty hpc hs, rfl, fun hfault => hhalted hfault rfl⟩

/-- R170, R173: a CALL that leaves no fault had a Word to return to, and left it on top of the stack. -/
theorem stack_of_call_noFault {s u : State} {a : Operand} (h : exec (.call a) s = .next u)
    (hfault : u.fault.cause = none) :
    s.pc.toNat + 2 < 32768 ∧ u.stack = s.stack ++ [BitVec.ofNat 15 (s.pc.toNat + 2)] := by
  obtain ⟨_, he, -⟩ | ⟨_, he, -, back, _, hback, -, rfl⟩ | ⟨-, -, -, he⟩ := exec_cases (.call a) s
  · cases he.symm.trans h
    cases hfault
  · cases he.symm.trans h
    obtain ⟨hlt, rfl⟩ := BitVec.toNat_eq_nat.1 hback
    exact ⟨hlt, rfl⟩
  · cases he.symm.trans h

/-- Settles O49: the CALL left its return address on top of the old stack, which is what the RET takes apart. -/
theorem returnResumesAfterCall : Obligations.ReturnResumesAfterCall := by
  intro s u v a _ h hfault hstack hpc
  obtain ⟨hlt, hpushed⟩ := stack_of_call_noFault h hfault
  rw [exec_ret_ok hpc (hstack.trans hpushed), BitVec.ofNat_toNat, setWidth_returnAddress hlt]
  rfl

end Sys2Proof.Machine
end

section
/-! OUT, IN and the checkpoint (`47_io.md` R180 to R190): the two instructions where their operand resolves, what no other
instruction does to the channels, and what a checkpoint carries and leaves alone. -/

namespace Sys2Proof.Machine

/-! ### OUT and IN -/

section Resolved

variable {s : State}

/-- R180, R182. -/
theorem exec_out_ok {a : Operand} {v : Word} (h : s.Room 2) (ha : valueOf? s a = some v) :
    exec (.out a) s = .next ((s.setPc (s.pc + 2)).emit (v.setWidth 8)) := by
  rw [exec, execOut, operandsV_ok s h ha, Res.andThen_ok]

variable (d : RegIndex) (h : s.Room 2)
include h

/-- R184: no outcome while the host has not answered. -/
theorem exec_input_waits (hin : s.input = []) : exec (.input (.register d)) s = .fault .awaitingInput := by
  simp only [exec, execInput, operandsR_ok s d h, Res.andThen_ok, State.setPc_input, hin]

/-- R186: end of input is a normal halt. -/
theorem exec_input_eof {rest : List InputAnswer} (hin : s.input = .eof :: rest) :
    exec (.input (.register d)) s = .next ((s.setPc (s.pc + 2)).setInput rest).setHalted := by
  simp only [exec, execInput, operandsR_ok s d h, Res.andThen_ok, State.setPc_input, hin]

/-- R185: a character is accepted past the instruction. -/
theorem exec_input_char {code : Nat} {rest : List InputAnswer} (hin : s.input = .char code :: rest) :
    exec (.input (.register d)) s = .next (acceptChar d code ((s.setPc (s.pc + 2)).setInput rest)) := by
  simp only [exec, execInput, operandsR_ok s d h, Res.andThen_ok, State.setPc_input, hin]

end Resolved

/-- Settles O33: OUT's operand resolves, and the low 8 bits of its value are sent past the instruction. -/
theorem outMeaning : Obligations.OutMeaning :=
  ⟨fun _ => ⟨rfl, exec_operandTrap _⟩,
    fun _ _ v hroom ha => ⟨v.setWidth 8, BitVec.toNat_setWidth 8 v, exec_out_ok hroom ha⟩⟩

/-- Settles O34, by the answer on offer and, for a character, by whether it is the newline. -/
theorem inMeaning : Obligations.InMeaning := by
  refine ⟨fun _ => ⟨rfl, exec_operandTrap _⟩, fun s d rest hroom =>
    ⟨exec_input_waits d hroom, exec_input_eof d hroom, fun code hin => ?_⟩⟩
  refine ⟨BitVec.ofNat 15 (code % 32768), _, by rw [BitVec.toNat_ofNat, Nat.mod_mod], rfl, ?_⟩
  rw [exec_input_char d hroom hin]
  obtain ⟨rfl, ht⟩ | ⟨hne, ht⟩ := acceptChar_cases d code ((s.setPc (s.pc + 2)).setInput rest)
  · exact ⟨fun hne => absurd rfl hne, fun _ => congrArg Host.Outcome.next ht⟩
  · exact ⟨fun _ => congrArg Host.Outcome.next ht, fun heq => absurd heq hne⟩

/-! ### What an instruction that completes does to the channels -/

section Completed
variable {i : Instr} {s t : State} (h : Completes s i t)
include h

/-- R181. -/
theorem Completes.output_cases :
    t.output = s.output ∨ ((∃ a, i = .out a) ∧ ∃ c, t.output = s.output ++ [c]) := by
  cases h with
  | out a c => exact .inr ⟨⟨a, rfl⟩, c, rfl⟩
  | _ => exact .inl rfl

/-- R184. -/
theorem Completes.input_cases :
    t.input = s.input ∨ ((∃ a, i = .input a) ∧ ∃ ans, s.input = ans :: t.input) := by
  cases h with
  | eof a rest hin => exact .inr ⟨⟨a, rfl⟩, .eof, hin⟩
  | char d code rest hne hin => exact .inr ⟨⟨_, rfl⟩, .char code, hin⟩
  | newline d rest hin => exact .inr ⟨⟨_, rfl⟩, .char 10, hin⟩
  | _ => exact .inl rfl

/-- R188 to R190: `checkpoints_cases`, with the instruction and the answer that make the request. -/
theorem Completes.checkpoint_newline :
    t.checkpoints = s.checkpoints ∨
      ((∃ a, i = .input a) ∧ (∃ rest, s.input = .char 10 :: rest) ∧ t.checkpoints = s.checkpoints ++ [t.snapshot]) := by
  cases h with
  | newline d rest hin => exact .inr ⟨⟨_, rfl⟩, ⟨rest, hin⟩, rfl⟩
  | _ => exact .inl rfl

end Completed

/-- Settles O41: a fault leaves the channels alone, and so does each effect but those of OUT and IN. -/
theorem channelsChangeOnlyByInAndOut : Obligations.ChannelsChangeOnlyByInAndOut := by
  intro i s t h
  obtain ⟨tr, rfl, -⟩ | ⟨-, hc⟩ := exec_next h
  · exact ⟨rfl, .inl rfl, .inl rfl, .inl rfl⟩
  · exact ⟨hc.cfg_eq, hc.output_cases, hc.input_cases, hc.checkpoint_newline⟩

/-! ### Checkpoints -/

/-- R188: a step that requests a checkpoint takes no fault and keeps the parameters, and the request carries the state it
leaves. -/
theorem checkpoints_of_step {s t : State} (hstep : step s = .next t) (hne : t.checkpoints ≠ s.checkpoints) :
    t.checkpoints = s.checkpoints ++ [t.snapshot] ∧ t.fault.cause = none ∧ t.cfg = s.cfg := by
  obtain ⟨hrun, ⟨tr, rfl, -⟩ | ⟨i, -, -, heff⟩⟩ := step_next hstep
  · exact absurd rfl hne
  · obtain ⟨hcause, -⟩ := State.status_eq_running_iff.1 hrun
    obtain heq | ⟨heq, -⟩ := heff.completes.checkpoints_cases
    · exact absurd heq hne
    · exact ⟨heq, by rw [heff.completes.fault_eq, hcause], heff.completes.cfg_eq⟩

/-- R246: the snapshot of a machine without a fault has all of its machine state. -/
theorem restore_snapshot {t u : State} (hvalid : t.snapshot.valid u.cfg = true) (hfault : t.fault = FaultRecord.empty) :
    restore t.snapshot u = .ok { u with toMachineState := t.toMachineState } := by
  rw [restore, if_pos hvalid, ← hfault]
  rfl

/-- Settles O47: the state the step leaves meets the invariant, which makes the checkpoint in it one a host may restore
(R248) and its fault record the empty one that a restore leaves. -/
theorem checkpointRestoresTheMachine : Obligations.CheckpointRestoresTheMachine := by
  intro s t hinv hstep hne
  obtain ⟨hsent, hcause, hcfg⟩ := checkpoints_of_step hstep hne
  obtain ⟨-, -, -, ⟨-, -, hempty⟩, hcp, -⟩ := stepKeepsInvariant s t hinv hstep
  obtain ⟨hvalid, hhalted⟩ := hcp t.snapshot (hsent ▸ List.mem_append_right _ (List.mem_singleton_self _))
  exact ⟨t.snapshot, hsent, hhalted, fun u hu => restore_snapshot (by rwa [hu, ← hcfg]) (hempty hcause)⟩

/-- Settles O48: by O59 both steps record the events of one and the same step of the machine alone. -/
theorem checkpointsDoNotAffectTheRun : Obligations.CheckpointsDoNotAffectTheRun := by
  intro s cs
  have hstep := stepReadsMachineStateAndOneAnswer s
  have hstep' : step { s with checkpoints := cs } =
      Result.mapNext (s.toMachineState.step s.cfg s.input.head?) ({ s with checkpoints := cs } : State).record :=
    stepReadsMachineStateAndOneAnswer { s with checkpoints := cs }
  rw [hstep, hstep']
  cases s.toMachineState.step s.cfg s.input.head? with
  | next u =>
    refine ⟨fun t ht => ?_, nofun⟩
    cases ht
    exact ⟨cs ++ u.checkpoints, rfl⟩
  | fault e => exact ⟨nofun, fun _ hr => hr⟩
  | refused e => exact ⟨nofun, nofun⟩

end Sys2Proof.Machine
end

section
/-! HALT and NOP (`48_halt_nop.md` R195, R196), the precision of faults (`60_exceptions.md` R200, R210, R211), reset and the
start of a run (`70_reset_and_hazards.md` R240 to R247). -/

namespace Sys2Proof.Machine

/-! ### HALT and NOP -/

theorem exec_halt_ok {s : State} (h : s.pc.toNat ≤ 32767) : exec .halt s = .next (s.setPc (s.pc + 1)).setHalted := by
  rw [exec, execHalt, operandsZ_ok s h, Res.andThen_ok]

theorem exec_nop_ok {s : State} (h : s.pc.toNat ≤ 32767) : exec .nop s = .next (s.setPc (s.pc + 1)) := by
  rw [exec, execNop, operandsZ_ok s h, Res.andThen_ok]

/-- Settles O13: the opcode word is in memory, and the status is that of a set flag without a fault. -/
theorem haltMeaning : Obligations.HaltMeaning := by
  refine ⟨rfl, fun s hpc => ?_⟩
  obtain ⟨-, hhalted, -⟩ := statusAndExitStatus (s.setPc (s.pc + 1)).setHalted
  exact ⟨_, exec_halt_ok hpc, rfl, fun hfault => hhalted hfault rfl⟩

/-- Settles O14: the opcode word is in memory. -/
theorem nopMeaning : Obligations.NopMeaning :=
  ⟨rfl, fun _ hpc => exec_nop_ok hpc⟩

/-! ### Faults -/

/-- Settles O40: a step that faults leaves the trapped state, and an instruction that completes leaves the record. -/
theorem faultsArePrecise : Obligations.FaultsArePrecise := by
  intro s t hstep hne
  obtain ⟨-, ⟨tr, rfl, -⟩ | ⟨i, -, -, heff⟩⟩ := step_next hstep
  · exact ⟨rfl, nofun, rfl, rfl⟩
  · exact absurd heff.completes.fault_eq hne

/-- Settles O57, by reading the code of each cause. -/
theorem faultCodes : Obligations.FaultCodes := ⟨rfl, rfl⟩

/-! ### Reset -/

theorem State.resetWith_reg (cfg : Config) (r : RegIndex) : (State.resetWith cfg).reg r = 0 :=
  Vector.getElem_replicate r.isLt

/-- Settles O55: the host's reset leaves the machine state of `State.resetWith`. -/
theorem resetValues : Obligations.ResetValues := by
  intro s
  exact ⟨State.resetWith_reg s.cfg, fun _ => rfl, rfl, rfl, rfl, rfl, rfl, rfl, rfl, rfl, rfl⟩

/-! ### The start of a run -/

/-- R241: the reset machine with the memory `m` of an image, before any checkpoint is restored. -/
def State.loaded (cfg : Config) (m : Memory) (input : List (ChannelAnswer cfg)) : State :=
  { State.resetWith cfg with mem := m, input := input.map fun a => a.val }

section Start
variable {cfg : Config} {image : Option (List Byte)} {m : Memory} {input : List (ChannelAnswer cfg)}

theorem start_image (h : loadImage image = .ok m) : start cfg image none input = .ok (State.loaded cfg m input) := by
  simp only [start, h]
  rfl

theorem start_checkpoint (h : loadImage image = .ok m) (c : Snapshot) :
    start cfg image (some c) input = restore c (State.loaded cfg m input) := by
  simp only [start, h]
  rfl

/-- A start that is not refused loads an image and, where there is a checkpoint, restores it. -/
theorem start_ok_cases {saved : Option Snapshot} {s : State} (h : start cfg image saved input = .ok s) :
    ∃ m, loadImage image = .ok m ∧
      ((saved = none ∧ s = State.loaded cfg m input) ∨
        ∃ c, saved = some c ∧ restore c (State.loaded cfg m input) = .ok s) := by
  cases hload : loadImage image with
  | error e =>
    simp only [start, hload] at h
    cases h
  | ok m =>
    refine ⟨m, rfl, ?_⟩
    cases saved with
    | none => exact .inl ⟨rfl, Except.ok.inj (h.symm.trans (start_image hload))⟩
    | some c => exact .inr ⟨c, rfl, (start_checkpoint hload c).symm.trans h⟩

theorem State.loaded_inv (input : List (ChannelAnswer cfg)) (hm : m.wf = true) : (State.loaded cfg m input).Inv := by
  obtain ⟨-, hpc, hstack, hfault, hcp, -⟩ := State.resetWith_inv cfg
  refine ⟨hm, hpc, hstack, hfault, hcp, fun a ha => ?_⟩
  obtain ⟨b, -, rfl⟩ := List.mem_map.1 ha
  exact b.property

end Start

/-- R247: a restored machine meets the invariant where the machine before it did. -/
theorem State.Inv.restored {c : Snapshot} {s t : State} (h : s.Inv) (hr : restore c s = .ok t) : t.Inv := by
  obtain ⟨-, -, -, -, hcp, hin⟩ := h
  by_cases hvalid : c.valid s.cfg = true
  · cases (if_pos hvalid).symm.trans hr
    simp only [Snapshot.valid, Bool.and_eq_true, decide_eq_true_eq] at hvalid
    obtain ⟨⟨hmem, hstack⟩, hpc⟩ := hvalid
    exact ⟨hmem, hpc, hstack, ⟨rfl, fun hne => absurd rfl hne, fun _ => rfl⟩, hcp, hin⟩
  · cases (if_neg hvalid).symm.trans hr

/-- Settles O44: the loaded machine meets the invariant, and restoring a checkpoint keeps it. -/
theorem startMeetsInvariant : Obligations.StartMeetsInvariant := by
  intro cfg image saved input s h
  obtain ⟨m, hload, ⟨-, rfl⟩ | ⟨c, -, hr⟩⟩ := start_ok_cases h
  · exact State.loaded_inv input (loadImage_wf hload)
  · exact (State.loaded_inv input (loadImage_wf hload)).restored hr

/-- Settles O54: the start is the loaded machine, whose `pc` is 0. -/
theorem startedMachineHoldsTheImage : Obligations.StartedMachineHoldsTheImage := by
  intro cfg image m input hload
  exact ⟨State.loaded cfg m input, start_image hload, State.resetWith_reg cfg, rfl, rfl, rfl,
    fun _ hx => if_pos hx, fetch_ok 0 (State.loaded cfg m input) (Nat.zero_le _)⟩

end Sys2Proof.Machine
end
